-- ==== Sys2Proof/Word.lean ====
section
/-! DEFINITION. The widths of the block's values: every port, register and data operand is 8 bits, the command latch
holds 7 bits and a playback mode 3 (00_scope.md R6, 10_state.md R25, R29); a transaction word is 16 bits
(30_encoding.md R78). -/

namespace Sys2Proof

/-- A byte: every data access is exactly 8 bits wide (00_scope.md R6, 20_memory.md R52). -/
abbrev Byte := BitVec 8

/-- A 16-bit transaction word, the spec's own encoding of one operation (30_encoding.md R78). -/
abbrev Word := BitVec 16

/-- A 3-bit playback mode, passed through uninterpreted (10_state.md R25). -/
abbrev Mode := BitVec 3

/-- The 7-bit pending sound command (10_state.md R29). -/
abbrev Command := BitVec 7

/-- `zext_8` of 00_scope.md R7 on a command: bit 7 of the result is 0. -/
def zext8 (c : Command) : Byte := c.zeroExtend 8

end Sys2Proof
end

