-- ==== Sys2Proof/Config.lean ====
section
/-! DEFINITION. What a board fixes (the parameters of 00_scope.md R5, as the plain record `Board`), the names of the
block's collaborators, and the free values: what the spec leaves to an oracle or to either order. The values the
parameters have by default stand in Machine/Board.lean. -/

namespace Sys2Proof

/-- The two PSGs by their board labels, 45M and 45L (00_scope.md R12, 90_conflicts.md C1). -/
inductive Psg where
  | m
  | l
  deriving DecidableEq, Repr

/-- The two ADPCM decoders: `primary` is decoder 1, the clock master; `secondary` is decoder 2, the clock slave, which
may be absent (00_scope.md R12). Roles are constants (10_state.md R26). -/
inductive Decoder where
  | primary
  | secondary
  deriving DecidableEq, Repr

/-- The four discrete lines, `line[0..3]` in this order (10_state.md R30). -/
inductive Line where
  | bd
  | sd
  | oh
  | ch
  deriving DecidableEq, Repr

/-- `ADPCM_VARIANT` (00_scope.md R3, R5): which of the two ADPCM address decoders the board wires. -/
inductive AdpcmVariant where
  | a
  | b
  deriving DecidableEq, Repr

/-- `LATCH_DECODE_SOURCE` (00_scope.md R5, 40_control_bus_latch.md R102): `new` is normative, `previous` the hedge. -/
inductive DecodeSource where
  | new
  | previous
  deriving DecidableEq, Repr

/-- `READ_BOTH_POLICY` (00_scope.md R5, 40_control_bus_latch.md R106): what a read with both selects set returns. -/
inductive ReadBothPolicy where
  | mPriority
  | any
  deriving DecidableEq, Repr

/-- One Boolean for each discrete line, in the order BD, SD, OH, CH. -/
structure Lines where
  bd : Bool
  sd : Bool
  oh : Bool
  ch : Bool
  deriving DecidableEq, Repr

/-- The entry of line `i`. -/
def Lines.get (x : Lines) : Line → Bool
  | .bd => x.bd
  | .sd => x.sd
  | .oh => x.oh
  | .ch => x.ch

/-- The `ADDR_*` parameters (20_memory.md R51). The spec gives no number and no width for any of them. -/
structure Addresses where
  /-- `ADDR_PORT1`, in the microcontroller's port space. -/
  port1 : Nat
  /-- `ADDR_PORT2`, in the microcontroller's port space. -/
  port2 : Nat
  /-- `ADDR_ADPCM_BASE`, in the microcontroller's memory-mapped space. -/
  adpcmBase : Nat
  /-- `ADDR_ACK`, in the microcontroller's memory-mapped space. -/
  ack : Nat
  /-- `ADDR_CMD_READ`, the microcontroller's input port. -/
  cmdRead : Nat
  /-- `ADDR_CMD_WRITE`, on the main-system bus. -/
  cmdWrite : Nat
  deriving DecidableEq, Repr

/-- The bits of a playback mode that select the sample rate, as a mask with at least one bit set: the "sample-rate-selecting
sub-field" of 42_psg_port_handlers.md R141, whose bits the source does not name (91_not_in_source.md N5; log 27). -/
abbrev RateField := { m : Mode // m ≠ 0 }

/-- The parameters of 00_scope.md R5 together with the presence of the required collaborators (60_exceptions.md R201).
They are fixed for the lifetime of a machine and are not state of the block; the model carries them beside the state
so that a statement ranges over every board (log 1). -/
structure Board where
  /-- The primary decoder exists (required, R201). -/
  primaryPresent : Bool
  /-- PSG M exists (required, R201). -/
  psgMPresent : Bool
  /-- PSG L exists (required, R201). -/
  psgLPresent : Bool
  /-- `SECONDARY_PRESENT`. -/
  secondaryPresent : Bool
  /-- `ADPCM_VARIANT`. -/
  adpcmVariant : AdpcmVariant
  /-- `SEL_BIT_M`, a bit index of `port2`. -/
  selBitM : Fin 8
  /-- `SEL_BIT_L`, a bit index of `port2`. -/
  selBitL : Fin 8
  /-- `PORT2_READ_VALUE`. -/
  port2ReadValue : Byte
  /-- `LATCH_DECODE_SOURCE`. -/
  latchDecodeSource : DecodeSource
  /-- `SEC_MODE`, the bits it overrides: the sample-rate sub-field (42_psg_port_handlers.md R141). -/
  secRateField : RateField
  /-- `SEC_MODE`, the constant it overrides them with: the slave setting, read in the bits of `secRateField` (R141). -/
  secSlaveSetting : Mode
  /-- `SEC_MODE`, the bits it derives from the rest of the field, as a table (`Board.secMode`; R141). -/
  secModeTable : Vector Mode 8
  /-- `LINE_PRESENT`. -/
  linePresent : Lines
  /-- `PORT2_RESET`. -/
  port2Reset : Byte
  /-- `ADDR_*`. -/
  addresses : Addresses
  /-- `READ_BOTH_POLICY`. -/
  readBothPolicy : ReadBothPolicy
  /-- `PORTB_PSG`: the PSG whose port B drives the decoders (42_psg_port_handlers.md R146). -/
  portBPsg : Psg
  /-- `PORTA_PSG`: the PSG whose port A drives the discrete lines (42_psg_port_handlers.md R146). -/
  portAPsg : Psg
  deriving DecidableEq, Repr

/-- FREE VALUE: the oracle `PSG_READ(t, a)` of 00_scope.md R8, the byte PSG `t` returns for a read of the register
its select latch names, one answer for each operation index; the block assumes nothing of it (log 6). -/
opaque Config.psgRead : Psg → Option Byte → Nat → Byte

/-- FREE VALUE: what readPort1 returns with both select bits set under `READ_BOTH_POLICY = ANY`
(93_implementation_defined.md U1), one answer for each operation index (log 7). -/
opaque Config.bothSelectedRead : Nat → Byte

/-- FREE VALUE: whether the second of two targets of one step acts before the first, where the spec admits both orders
(40_control_bus_latch.md R103, 43_adpcm_feed.md R160), one answer for each operation index (log 8). -/
opaque Config.freeOrder : Nat → Bool

end Sys2Proof
end

