-- ==== Sys2Proof/Syntax.lean ====
section
/-! DEFINITION. The 13 operations of 30_encoding.md R79, one constructor for each row of spec/opcode_table.json, with
the operands at the widths R79 gives them. -/

namespace Sys2Proof

/-- One operation: one entry-point call on the block (00_scope.md R9). -/
inductive Instr where
  /-- WP1, writePort1 (40_control_bus_latch.md R100). -/
  | wp1 (v : Byte)
  /-- WP2, writePort2 (40_control_bus_latch.md R101). -/
  | wp2 (v : Byte)
  /-- RP1, readPort1 (40_control_bus_latch.md R106). -/
  | rp1
  /-- RP2, readPort2 (40_control_bus_latch.md R107). -/
  | rp2
  /-- SMP, sampleConsumed from decoder 1 (41_decoder_sync.md R130). -/
  | smp
  /-- PBW, portBWrite (42_psg_port_handlers.md R140). -/
  | pbw (b : Byte)
  /-- PAW, portAWrite (42_psg_port_handlers.md R144). -/
  | paw (a : Byte)
  /-- ADWA, adpcmWriteA (43_adpcm_feed.md R160): a 2-bit offset. -/
  | adwa (off : BitVec 2) (v : Byte)
  /-- ADWB, adpcmWriteB (43_adpcm_feed.md R161): a 1-bit offset. -/
  | adwb (off : BitVec 1) (v : Byte)
  /-- CMD, submitCommand (44_command_latch.md R170). -/
  | cmd (c : Byte)
  /-- ACK, irqAck (44_command_latch.md R172); the byte is ignored. -/
  | ack (v : Byte)
  /-- RCL, readCommand (44_command_latch.md R173). -/
  | rcl
  /-- RST, reset (70_reset_and_hazards.md R230). -/
  | rst
  deriving DecidableEq, Repr

end Sys2Proof
end

