-- ==== Sys2Proof/WellFormed.lean ====
section
/-! DEFINITION. What a board and an instruction must satisfy before a step exists: the required collaborators
(60_exceptions.md R201) and, for the two ADPCM writes, the variant the board wires (30_encoding.md R80). The operand
widths are in the types of `Instr`, and the form 42_psg_port_handlers.md R141 asks of `SEC_MODE` is in `Board.secMode`. -/

namespace Sys2Proof

/-- A board that has the required collaborators: the primary decoder and both PSGs (60_exceptions.md R201). -/
def Board.hasCollaborators (b : Board) : Bool :=
  b.primaryPresent && b.psgMPresent && b.psgLPresent

/-- An instruction that exists on a board: ADWA only with `ADPCM_VARIANT = A`, ADWB only with `ADPCM_VARIANT = B`,
every other one always (30_encoding.md R80, 43_adpcm_feed.md R160, R161). -/
def Instr.wellFormed (b : Board) : Instr → Bool
  | .wp1 _ => true
  | .wp2 _ => true
  | .rp1 => true
  | .rp2 => true
  | .smp => true
  | .pbw _ => true
  | .paw _ => true
  | .adwa _ _ => decide (b.adpcmVariant = .a)
  | .adwb _ _ => decide (b.adpcmVariant = .b)
  | .cmd _ => true
  | .ack _ => true
  | .rcl => true
  | .rst => true

end Sys2Proof
end

