-- ==== Sys2Proof/Decode.lean ====
section
/-! DEFINITION. The transaction word of 30_encoding.md section 3: its fields (R78), the operation codes and the match
and mask pairs (R79), the decoder with the reserved words refused by name (R80), the encoder written from the same
table, and the trace lines (R83). -/

namespace Sys2Proof

/-- `OP`, bits 15:12 (30_encoding.md R78). -/
def opField (w : Word) : BitVec 4 := w.extractLsb' 12 4

/-- The reserved bits 11:10 (30_encoding.md R78). -/
def resField (w : Word) : BitVec 2 := w.extractLsb' 10 2

/-- `OFF`, bits 9:8 (30_encoding.md R78). -/
def offField (w : Word) : BitVec 2 := w.extractLsb' 8 2

/-- `DATA`, bits 7:0 (30_encoding.md R78). -/
def dataField (w : Word) : Byte := w.extractLsb' 0 8

/-- Why a word is reserved: the five groups of 30_encoding.md R80, in its order. -/
inductive Reserved where
  /-- OP in 0x0, 0xE, 0xF. -/
  | op
  /-- Bits 11:10 not 0. -/
  | bits11to10
  /-- OFF not 0 on an operation other than ADWA and ADWB. -/
  | off
  /-- ADWB with OFF[1] = 1. -/
  | adwbOff1
  /-- RP1, RP2, SMP, RCL or RST with DATA not 0. -/
  | data
  deriving DecidableEq, Repr

/-- The word of an operation with a byte operand: OFF must be 0 (30_encoding.md R78, R80). -/
def decodeByteOperand (w : Word) (k : Byte → Instr) : Except Reserved Instr :=
  if offField w = 0 then .ok (k (dataField w)) else .error .off

/-- The word of an operation with no operand: OFF and DATA must be 0 (30_encoding.md R78, R80). -/
def decodeNoOperand (w : Word) (i : Instr) : Except Reserved Instr :=
  if offField w = 0 then
    if dataField w = 0 then .ok i else .error .data
  else .error .off

/-- The word of ADWB: OFF[1] must be 0, OFF[0] is the selector (30_encoding.md R79, R80). -/
def decodeAdwb (w : Word) : Except Reserved Instr :=
  if (offField w).getLsbD 1 then .error .adwbOff1
  else .ok (.adwb ((offField w).extractLsb' 0 1) (dataField w))

/-- The operands of a word whose bits 11:10 are 0, by its OP (30_encoding.md R79). -/
def decodeOp (w : Word) : Except Reserved Instr :=
  match (opField w).toNat with
  | 0x1 => decodeByteOperand w .wp1
  | 0x2 => decodeByteOperand w .wp2
  | 0x3 => decodeNoOperand w .rp1
  | 0x4 => decodeNoOperand w .rp2
  | 0x5 => decodeNoOperand w .smp
  | 0x6 => decodeByteOperand w .pbw
  | 0x7 => decodeByteOperand w .paw
  | 0x8 => .ok (.adwa (offField w) (dataField w))
  | 0x9 => decodeAdwb w
  | 0xA => decodeByteOperand w .cmd
  | 0xB => decodeByteOperand w .ack
  | 0xC => decodeNoOperand w .rcl
  | 0xD => decodeNoOperand w .rst
  | _ => .error .op

/-- OP names an operation of 30_encoding.md R79: it is not 0x0, 0xE or 0xF (R80). -/
def opAssigned (w : Word) : Bool :=
  decide (1 ≤ (opField w).toNat) && decide ((opField w).toNat ≤ 0xD)

/-- The decoder, total on every 16-bit word: the operation a word encodes, or the reason it is reserved
(30_encoding.md R79, R80). The variant that the board wires is checked where the operation runs, since a word carries
no configuration (log 18). -/
def decode (w : Word) : Except Reserved Instr :=
  if opAssigned w then
    if resField w = 0 then decodeOp w else .error .bits11to10
  else .error .op

/-- The word with the given OP, OFF and DATA and zeros in bits 11:10 (30_encoding.md R78). -/
def packWord (op : BitVec 4) (off : BitVec 2) (data : Byte) : Word :=
  ((op ++ 0#2) ++ off) ++ data

/-- The encoder: the word of each operation, from the operation codes of 30_encoding.md R79. -/
def encode : Instr → Word
  | .wp1 v => packWord 0x1 0 v
  | .wp2 v => packWord 0x2 0 v
  | .rp1 => packWord 0x3 0 0
  | .rp2 => packWord 0x4 0 0
  | .smp => packWord 0x5 0 0
  | .pbw b => packWord 0x6 0 b
  | .paw a => packWord 0x7 0 a
  | .adwa off v => packWord 0x8 off v
  | .adwb off v => packWord 0x9 (off.zeroExtend 2) v
  | .cmd c => packWord 0xA 0 c
  | .ack v => packWord 0xB 0 v
  | .rcl => packWord 0xC 0 0
  | .rst => packWord 0xD 0 0

/-- A row of the match and mask table of 30_encoding.md R79. -/
structure EncodingRow where
  pattern : Word
  mask : Word
  deriving DecidableEq, Repr

/-- A word matches a row when its masked bits are the row's. -/
def EncodingRow.matchesWord (r : EncodingRow) (w : Word) : Bool := decide (w &&& r.mask = r.pattern)

/-- The row of 30_encoding.md R79's match and mask table for each operation. -/
def Instr.encodingRow : Instr → EncodingRow
  | .wp1 _ => ⟨0x1000, 0xFF00⟩
  | .wp2 _ => ⟨0x2000, 0xFF00⟩
  | .rp1 => ⟨0x3000, 0xFFFF⟩
  | .rp2 => ⟨0x4000, 0xFFFF⟩
  | .smp => ⟨0x5000, 0xFFFF⟩
  | .pbw _ => ⟨0x6000, 0xFF00⟩
  | .paw _ => ⟨0x7000, 0xFF00⟩
  | .adwa _ _ => ⟨0x8000, 0xFC00⟩
  | .adwb _ _ => ⟨0x9000, 0xFE00⟩
  | .cmd _ => ⟨0xA000, 0xFF00⟩
  | .ack _ => ⟨0xB000, 0xFF00⟩
  | .rcl => ⟨0xC000, 0xFFFF⟩
  | .rst => ⟨0xD000, 0xFFFF⟩

/-- The whole match and mask table of 30_encoding.md R79, in its order. -/
def encodingTable : List EncodingRow :=
  [⟨0x1000, 0xFF00⟩, ⟨0x2000, 0xFF00⟩, ⟨0x3000, 0xFFFF⟩, ⟨0x4000, 0xFFFF⟩, ⟨0x5000, 0xFFFF⟩, ⟨0x6000, 0xFF00⟩,
    ⟨0x7000, 0xFF00⟩, ⟨0x8000, 0xFC00⟩, ⟨0x9000, 0xFE00⟩, ⟨0xA000, 0xFF00⟩, ⟨0xB000, 0xFF00⟩, ⟨0xC000, 0xFFFF⟩,
    ⟨0xD000, 0xFFFF⟩]

/-- The instruction the decoder reads from a table word of `nbits` bits: the word's bits above `nbits` are 0
(every row of the table has 16 bits, 30_encoding.md R82), and `none` where the decoder refuses the word. -/
def decodeTableWord (nbits w : Nat) : Option Instr :=
  match decode (BitVec.ofNat 16 (w % 2 ^ nbits)) with
  | .ok i => some i
  | .error _ => none

/-- A byte operand of a trace line: a number below 256 (30_encoding.md R83). -/
def traceByte (n : Nat) : Option Byte := if n < 256 then some (BitVec.ofNat 8 n) else none

/-- The trace line of 30_encoding.md R83, given as its mnemonic and the numbers after it: the operation it stands for,
or `none` for a line that has none of R83's forms. A missing operand of ACK means 0x00. -/
def ofTraceLine : String → List Nat → Option Instr
  | "WP1", [v] => (traceByte v).map .wp1
  | "WP2", [v] => (traceByte v).map .wp2
  | "RP1", [] => some .rp1
  | "RP2", [] => some .rp2
  | "SMP", [] => some .smp
  | "PBW", [v] => (traceByte v).map .pbw
  | "PAW", [v] => (traceByte v).map .paw
  | "ADWA", [off, v] => if off < 4 then (traceByte v).map (.adwa (BitVec.ofNat 2 off)) else none
  | "ADWB", [off, v] => if off < 2 then (traceByte v).map (.adwb (BitVec.ofNat 1 off)) else none
  | "CMD", [v] => (traceByte v).map .cmd
  | "ACK", [v] => (traceByte v).map .ack
  | "ACK", [] => some (.ack 0)
  | "RCL", [] => some .rcl
  | "RST", [] => some .rst
  | _, _ => none

/-- The trace line that stands for an operation: its mnemonic and operands (30_encoding.md R83). -/
def toTraceLine : Instr → String × List Nat
  | .wp1 v => ("WP1", [v.toNat])
  | .wp2 v => ("WP2", [v.toNat])
  | .rp1 => ("RP1", [])
  | .rp2 => ("RP2", [])
  | .smp => ("SMP", [])
  | .pbw b => ("PBW", [b.toNat])
  | .paw a => ("PAW", [a.toNat])
  | .adwa off v => ("ADWA", [off.toNat, v.toNat])
  | .adwb off v => ("ADWB", [off.toNat, v.toNat])
  | .cmd c => ("CMD", [c.toNat])
  | .ack v => ("ACK", [v.toNat])
  | .rcl => ("RCL", [])
  | .rst => ("RST", [])

end Sys2Proof
end

