-- ==== Sys2Proof/Machine/Event.lean ====
section
/-! DEFINITION. The output events of 10_state.md R32: the only way the block acts on its collaborators. -/

namespace Sys2Proof.Machine

/-- An output event (10_state.md R32). -/
inductive Event where
  /-- `PsgAddr(t, v)`: register-select of byte `v` on PSG `t`. -/
  | psgAddr (t : Psg) (v : Byte)
  /-- `PsgData(t, a, v)`: data write of `v` on PSG `t`, whose select latch holds `a`. -/
  | psgData (t : Psg) (a : Option Byte) (v : Byte)
  /-- `PsgRead(t, a, r)`: data read from PSG `t` with selected register `a`, which returned `r`. -/
  | psgRead (t : Psg) (a : Option Byte) (r : Byte)
  /-- `Nmi`: one pulse on the microcontroller's non-maskable interrupt input. -/
  | nmi
  /-- `SecClk(b)`: the secondary decoder's clock input driven to level `b`. -/
  | secClk (b : Bool)
  /-- `DecMode(d, m)`: decoder `d`'s mode input driven to `m`. -/
  | decMode (d : Decoder) (m : Mode)
  /-- `DecReset(d, b)`: decoder `d`'s reset input driven to level `b`, true being asserted. -/
  | decReset (d : Decoder) (b : Bool)
  /-- `DecData(d, v)`: byte `v` fed to decoder `d`. -/
  | decData (d : Decoder) (v : Byte)
  /-- `Irq(b)`: the external interrupt request line driven to level `b`. -/
  | irq (b : Bool)
  /-- `Line(i, b)`: discrete line `i` driven to level `b`. -/
  | line (i : Line) (b : Bool)
  /-- `Log(Port2Read)`: the diagnostic record that `port2` was read. -/
  | logPort2Read
  deriving DecidableEq, Repr

end Sys2Proof.Machine
end

