-- ==== Sys2Proof/Machine/Board.lean ====
section
/-! DEFINITION. The parameter `SEC_MODE` as a function, the values the parameters of 00_scope.md R5 have by default, and
the board State.reset stands on. -/

namespace Sys2Proof

/-- `SEC_MODE(f)` (42_psg_port_handlers.md R141, decision D9): the sample-rate sub-field is overridden with the slave
setting whatever `f`, and the other bits come from the board's table at the rest of `f`. Both properties R141 asks of
any `SEC_MODE` hold of every board by this definition, and every function with them is some board's (log 27). -/
def Board.secMode (b : Board) (f : Mode) : Mode :=
  (b.secModeTable[(f &&& ~~~b.secRateField.val).toNat]'(BitVec.isLt _) &&& ~~~b.secRateField.val) |||
    (b.secSlaveSetting &&& b.secRateField.val)

end Sys2Proof

namespace Sys2Proof.Machine

/-- The default of `SEC_MODE`: keep bit 2, force the low two bits to 0b11 (42_psg_port_handlers.md R141; from general
knowledge by the spec's own word, 93_implementation_defined.md G2, G3; log 5). -/
def defaultSecMode (f : Mode) : Mode := (f &&& 0b100#3) ||| 0b011#3

/-- The table of a function of the 3-bit field. -/
def secModeTableOf (g : Mode → Mode) : Vector Mode 8 :=
  #v[g 0, g 1, g 2, g 3, g 4, g 5, g 6, g 7]

/-- DESIGN CHOICE (log 2, log 14): one number for each `ADDR_*`, which the spec leaves open (20_memory.md R51). -/
def sampleAddresses : Addresses :=
  { port1 := 0, port2 := 1, adpcmBase := 0, ack := 4, cmdRead := 0, cmdWrite := 0 }

/-- The defaults of 00_scope.md R5. The parameters it leaves OPEN take the values 95_test_vectors.md assumes first:
the secondary present, variant A (DESIGN CHOICE, log 2). -/
def standardBoard : Board :=
  { primaryPresent := true
    psgMPresent := true
    psgLPresent := true
    secondaryPresent := true
    adpcmVariant := .a
    selBitM := 3
    selBitL := 4
    port2ReadValue := 0x00
    latchDecodeSource := .new
    secRateField := ⟨0b011, by decide⟩
    secSlaveSetting := 0b011
    secModeTable := secModeTableOf defaultSecMode
    linePresent := { bd := true, sd := true, oh := true, ch := true }
    port2Reset := 0x00
    addresses := sampleAddresses
    readBothPolicy := .mPriority
    portBPsg := .m
    portAPsg := .l }

end Sys2Proof.Machine
end

