-- ==== Sys2Proof/Machine/Record.lean ====
section
/-! DEFINITION. The state record of 10_state.md R20, field for field, and its reset values (R34). A snapshot is exactly
this record (R35). -/

namespace Sys2Proof.Machine

/-- What the block last drove onto one decoder's mode and reset inputs; `none` until the first port-B write
(10_state.md R25). -/
structure DecoderDrive where
  /-- `decMode[d]`. -/
  mode : Option Mode
  /-- `decReset[d]`; true is asserted. -/
  reset : Option Bool
  deriving DecidableEq, Repr

/-- The state record of 10_state.md R20. Nothing else is state of the block. -/
structure Registers where
  /-- `port1`, the most recently written data byte (R21). -/
  port1 : Byte
  /-- `port2`, the previous control byte (R22). -/
  port2 : Byte
  /-- `psgAddr[M]` (R24). -/
  psgAddrM : Option Byte
  /-- `psgAddr[L]` (R24). -/
  psgAddrL : Option Byte
  /-- `decMode[1]` and `decReset[1]` (R25). -/
  decoder1 : DecoderDrive
  /-- `decMode[2]` and `decReset[2]`; absent, not merely undriven, on a board without the secondary (R20, log 17). -/
  decoder2 : Option DecoderDrive
  /-- `irq`, the interrupt-request latch (R28). -/
  irq : Bool
  /-- `cmd`, the pending sound command (R29). -/
  cmd : Command
  /-- `line[0..3]` (R30). -/
  line : Lines
  deriving DecidableEq, Repr

/-- `psgAddr[t]` (10_state.md R24). -/
def Registers.psgAddr (r : Registers) : Psg → Option Byte
  | .m => r.psgAddrM
  | .l => r.psgAddrL

/-- The record with `psgAddr[t] <- a`. -/
def Registers.setPsgAddr (r : Registers) (t : Psg) (a : Option Byte) : Registers :=
  match t with
  | .m => { r with psgAddrM := a }
  | .l => { r with psgAddrL := a }

/-- A decoder whose inputs the block has not driven (10_state.md R34). -/
def undrivenDecoder : DecoderDrive := { mode := none, reset := none }

/-- Every field at its reset value (10_state.md R34, decision D3; log 3). -/
def resetRegisters (b : Board) : Registers :=
  { port1 := 0x00
    port2 := b.port2Reset
    psgAddrM := none
    psgAddrL := none
    decoder1 := undrivenDecoder
    decoder2 := if b.secondaryPresent then some undrivenDecoder else none
    irq := false
    cmd := 0
    line := { bd := false, sd := false, oh := false, ch := false } }

end Sys2Proof.Machine
end

