-- ==== Sys2Proof/Machine/State.lean ====
section
/-! DEFINITION. The machine's state as plain data: the record of 10_state.md R20, the board's parameters, and the
model's own fields (the inputs still to come, the outputs of the step just taken, the free values' index). Also the
reasons a step can stop, and State.reset. -/

namespace Sys2Proof.Machine

/-- The faults of the block. There are none: "this core must never raise an error for any input value"
(60_exceptions.md R200), so no constructor exists and no step can fault. -/
inductive Fault : Type
  deriving DecidableEq, Repr

/-- Why the model gives a step no meaning (`refuse` of 00_scope.md R8). -/
inductive Refusal where
  /-- Raised by an arm of exec whose operation has no meaning yet; no arm is left so. Safe: nothing is claimed. -/
  | notModelled (mnemonic : String)
  /-- Raised by the delivery of a reserved transaction word (30_encoding.md R80). Safe: the word exists in no
  hardware. -/
  | reservedWord (why : Reserved)
  /-- Raised by ADWA on a variant B board and by ADWB on a variant A board (30_encoding.md R80). Safe: such a board
  has no such entry point. -/
  | adpcmVariantNotWired
  /-- Raised by step on a board without the primary decoder or a PSG (60_exceptions.md R201). Safe: no machine
  exists for it. -/
  | requiredCollaboratorMissing
  /-- Raised by the delivery of a bus access that addresses no entry point of the block (20_memory.md R50, R51;
  log 14). Safe: the access belongs to another device. -/
  | notAnEntryPoint
  /-- Raised by the restore of a snapshot whose decoder 2 fields are not the board's: it is not the complete field
  set 60_exceptions.md R217 asks of the host (log 15). Safe: nothing is claimed. -/
  | incompleteSnapshot
  deriving DecidableEq, Repr

/-- The spaces through which a bus reaches the block (20_memory.md R50). -/
inductive BusSpace where
  /-- The microcontroller's port space. -/
  | mcuPort
  /-- The microcontroller's memory-mapped space. -/
  | mcuMemory
  /-- The microcontroller's input port. -/
  | mcuInput
  /-- The main-system bus. -/
  | mainBus
  deriving DecidableEq, Repr

/-- One bus access: a write of a byte, or a read (`write = none`). Every access is one byte (20_memory.md R52). -/
structure BusAccess where
  space : BusSpace
  address : Nat
  write : Option Byte
  deriving DecidableEq, Repr

/-- One input of the environment, delivered between operations (00_scope.md R9, 60_exceptions.md R217). -/
inductive Input where
  /-- An operation as a transaction word (30_encoding.md R78). -/
  | word (w : Word)
  /-- An operation as a bus access, decoded through the `ADDR_*` parameters (20_memory.md R51). -/
  | bus (a : BusAccess)
  /-- The host restores a snapshot (10_state.md R35). -/
  | restore (r : Registers)
  deriving DecidableEq, Repr

/-- The machine's state. `regs` is the block's whole state (10_state.md R20); the other fields are the model's. -/
structure State where
  /-- The state record of the block. -/
  regs : Registers
  /-- The parameters, fixed for the run (00_scope.md R5, log 1). -/
  board : Board
  /-- The inputs the environment has yet to deliver, the next one first (60_exceptions.md R212, log 11). -/
  pending : List Input
  /-- The ordered output list of the step just taken (10_state.md R32, log 13). -/
  out : List Event
  /-- The byte the operation just executed returned (00_scope.md R8, log 13). -/
  result : Option Byte
  /-- How many operations have been executed: the index the free values are applied to (log 19). -/
  opIndex : Nat
  deriving DecidableEq, Repr

/-- The machine right after reset on a given board: the record at its reset values (10_state.md R34), no event emitted
(70_reset_and_hazards.md R230), no operation delivered yet. -/
def State.resetOn (b : Board) : State :=
  { regs := resetRegisters b
    board := b
    pending := []
    out := []
    result := none
    opIndex := 0 }

/-- The machine right after reset, on the standard board (log 2). -/
def State.reset : State := State.resetOn standardBoard

end Sys2Proof.Machine
end

