-- ==== Sys2Proof/Machine/Operands.lean ====
section
/-! DEFINITION. The bits of the block's byte-wide operands: the port 2 control byte (30_encoding.md R70), the port-B
byte (R71), the port-A byte (R72), the command byte (R73), the ADPCM offsets (R74, R75), the decode functions of R76
and the edge predicate of R77. The block has no condition flags (10_state.md R36). -/

namespace Sys2Proof.Machine

/-- `stb(v) = v[0]`, the write-strobe level (30_encoding.md R70, R76). -/
def stb (v : Byte) : Bool := v.getLsbD 0

/-- `ph(v) = v[2]`: true is the register-select phase, false the data phase (30_encoding.md R70, R76). -/
def ph (v : Byte) : Bool := v.getLsbD 2

/-- `selM(v) = v[SEL_BIT_M]` and `selL(v) = v[SEL_BIT_L]` (30_encoding.md R70, R76). -/
def sel (b : Board) (v : Byte) : Psg → Bool
  | .m => v.getLsbD b.selBitM.val
  | .l => v.getLsbD b.selBitL.val

/-- `fall(prev, new)`: a 1-to-0 transition of the strobe, and nothing else, is an edge (30_encoding.md R77). -/
def fall (prev new : Byte) : Bool := stb prev && !stb new

/-- `mode(b) = b[4:2]` (30_encoding.md R71, R76). -/
def modeField (b : Byte) : Mode := b.extractLsb' 2 3

/-- `rst1(b) = b[0]` (30_encoding.md R71, R76). -/
def rst1 (b : Byte) : Bool := b.getLsbD 0

/-- `rst2(b) = b[1]` (30_encoding.md R71, R76). -/
def rst2 (b : Byte) : Bool := b.getLsbD 1

/-- The bit of the port-A byte that drives each line: bits 0 to 3, active-high (30_encoding.md R72). -/
def lineBit (a : Byte) : Line → Bool
  | .bd => a.getLsbD 0
  | .sd => a.getLsbD 1
  | .oh => a.getLsbD 2
  | .ch => a.getLsbD 3

/-- `cmdint(c) = c[7]` (30_encoding.md R73, R76). -/
def cmdInt (c : Byte) : Bool := c.getLsbD 7

/-- `cmdval(c) = c[6:0]` (30_encoding.md R73, R76). -/
def cmdVal (c : Byte) : Command := c.extractLsb' 0 7

/-- The decoders a variant A offset addresses: bit 0 decoder 1, bit 1 decoder 2 (30_encoding.md R74). -/
def targetsA (off : BitVec 2) : List Decoder :=
  (if off.getLsbD 0 then [.primary] else []) ++ (if off.getLsbD 1 then [.secondary] else [])

/-- The one decoder a variant B offset addresses: 0 decoder 1, 1 decoder 2 (30_encoding.md R75). -/
def targetB (off : BitVec 1) : Decoder := if off.getLsbD 0 then .secondary else .primary

/-- The PSGs whose select bit is set in a control byte, M first (40_control_bus_latch.md R101). -/
def selectedPsgs (b : Board) (d : Byte) : List Psg :=
  (if sel b d .m then [.m] else []) ++ (if sel b d .l then [.l] else [])

/-- The byte an edge decodes phase and selects from: the new value, or the previous one under the hedge setting of
`LATCH_DECODE_SOURCE` (40_control_bus_latch.md R102, log 9). -/
def decodeSource (b : Board) (prev new : Byte) : Byte :=
  match b.latchDecodeSource with
  | .new => new
  | .previous => prev

end Sys2Proof.Machine
end

