-- ==== Sys2Proof/Machine/Ops.lean ====
section
/-! DEFINITION. The operations the meanings share: completing an operation, the presence check, the free order of two
targets, an access of one PSG and of all the selected ones, driving a decoder, feeding a decoder, and driving the two
interrupt outputs. The block takes no exception and returns from none (60_exceptions.md R200, R207): `nmiPulse` and
`driveIrq` are the whole of what it does about interrupts. -/

namespace Sys2Proof.Machine

/-- The state after an operation: the record it left, its ordered output list, the byte it returned. The index of the
free values advances. -/
def State.after (s : State) (r : Registers) (evs : List Event) (res : Option Byte) : State :=
  { s with regs := r, out := evs, result := res, opIndex := s.opIndex + 1 }

/-- An operation completes in one atomic step (00_scope.md R9). -/
def finish (s : State) (r : Registers) (evs : List Event) (res : Option Byte) : Host.Outcome State Fault Refusal :=
  .next (s.after r evs res)

/-- A decoder exists on a board: decoder 1 always, decoder 2 when `SECONDARY_PRESENT` (00_scope.md R11). -/
def decoderPresent (b : Board) : Decoder → Bool
  | .primary => true
  | .secondary => b.secondaryPresent

/-- Two targets of one step act in either order: the free value at `n` chooses (40_control_bus_latch.md R103,
decision D11; log 8). Fewer than two targets have one order. -/
def inFreeOrder {α : Type} (n : Nat) : List α → List α
  | [a, b] => if Config.freeOrder n then [b, a] else [a, b]
  | l => l

/-- One PSG access on an edge decoded from `d`: a register select in the register-select phase (40_control_bus_latch.md
R104), a data write in the data phase (R105). -/
def accessPsg (d : Byte) (r : Registers) (t : Psg) : Registers × List Event :=
  if ph d then (r.setPsgAddr t (some r.port1), [.psgAddr t r.port1])
  else (r, [.psgData t (r.psgAddr t) r.port1])

/-- The accesses of the listed PSGs, one after the other, with their events in that order. -/
def accessPsgs (d : Byte) : Registers → List Psg → Registers × List Event
  | r, [] => (r, [])
  | r, t :: ts =>
    let first := accessPsg d r t
    let rest := accessPsgs d first.1 ts
    (rest.1, first.2 ++ rest.2)

/-- The access that a write of `new` to `port2` commits: one for each selected PSG on a falling edge, none without one
(40_control_bus_latch.md R101, 10_state.md R23). -/
def commitAccess (b : Board) (n : Nat) (r : Registers) (new : Byte) : Registers × List Event :=
  if fall r.port2 new then
    let d := decodeSource b r.port2 new
    accessPsgs d r (inFreeOrder n (selectedPsgs b d))
  else (r, [])

/-- The PSG that readPort1 reads: M has priority, `none` with no select bit set (40_control_bus_latch.md R106). -/
def readTarget (b : Board) (p2 : Byte) : Option Psg :=
  if sel b p2 .m then some .m else if sel b p2 .l then some .l else none

/-- Both select bits are set and the policy leaves the read's outcome free (40_control_bus_latch.md R106,
93_implementation_defined.md U1). -/
def readIsFree (b : Board) (p2 : Byte) : Bool :=
  sel b p2 .m && sel b p2 .l && decide (b.readBothPolicy = .any)

/-- A data read of PSG `t`: the oracle's byte and the event that records it (40_control_bus_latch.md R106). -/
def readPsg (n : Nat) (r : Registers) (t : Psg) : Byte × List Event :=
  let v := Config.psgRead t (r.psgAddr t) n
  (v, [.psgRead t (r.psgAddr t) v])

/-- What readPort1 returns and emits (40_control_bus_latch.md R106). -/
def readPort1Value (b : Board) (n : Nat) (r : Registers) : Byte × List Event :=
  if readIsFree b r.port2 then (Config.bothSelectedRead n, [])
  else
    match readTarget b r.port2 with
    | some t => readPsg n r t
    | none => (0xFF, [])

/-- One pulse on the non-maskable interrupt input, with no state (10_state.md R31). -/
def nmiPulse : List Event := [.nmi]

/-- One clock pulse on the secondary decoder: assert, then deassert; nothing when it is absent (41_decoder_sync.md
R130, 00_scope.md R11). -/
def secondaryClockPulse (b : Board) : List Event :=
  if b.secondaryPresent then [.secClk true, .secClk false] else []

/-- The interrupt-request latch set to a level, with the event that drives the line (60_exceptions.md R204). -/
def driveIrq (r : Registers) (level : Bool) : Registers × List Event :=
  ({ r with irq := level }, [.irq level])

/-- The drive of decoder 2 by a port-B byte: the mode `SEC_MODE` makes of the field, and bit 1
(42_psg_port_handlers.md R140, R141). -/
def secondaryDrive (b : Board) (v : Byte) : DecoderDrive :=
  { mode := some (b.secMode (modeField v)), reset := some (rst2 v) }

/-- The drive of decoder 1 by a port-B byte: the mode field unchanged, and bit 0 (42_psg_port_handlers.md R140). -/
def primaryDrive (v : Byte) : DecoderDrive :=
  { mode := some (modeField v), reset := some (rst1 v) }

/-- The record after a port-B byte: both decoders driven, decoder 2 only when present (42_psg_port_handlers.md
R140). -/
def driveDecoders (b : Board) (r : Registers) (v : Byte) : Registers :=
  { r with
    decoder1 := primaryDrive v
    decoder2 := if b.secondaryPresent then some (secondaryDrive b v) else r.decoder2 }

/-- The events of a port-B byte in the order mode 1, mode 2, reset 1, reset 2 (42_psg_port_handlers.md R140, R143). -/
def driveDecodersEvents (b : Board) (v : Byte) : List Event :=
  [.decMode .primary (modeField v)] ++
    (if b.secondaryPresent then [.decMode .secondary (b.secMode (modeField v))] else []) ++
    [.decReset .primary (rst1 v)] ++
    (if b.secondaryPresent then [.decReset .secondary (rst2 v)] else [])

/-- The four lines a port-A byte sets (42_psg_port_handlers.md R144). -/
def linesOf (a : Byte) : Lines :=
  { bd := lineBit a .bd, sd := lineBit a .sd, oh := lineBit a .oh, ch := lineBit a .ch }

/-- The event of one line, none for a line the board does not connect (42_psg_port_handlers.md R144, R145). -/
def lineEvent (b : Board) (a : Byte) (i : Line) : List Event :=
  if b.linePresent.get i then [.line i (lineBit a i)] else []

/-- The events of a port-A byte, in index order BD, SD, OH, CH (42_psg_port_handlers.md R144). -/
def lineEvents (b : Board) (a : Byte) : List Event :=
  lineEvent b a .bd ++ lineEvent b a .sd ++ lineEvent b a .oh ++ lineEvent b a .ch

/-- A byte fed to one decoder, whole and not gated by its mode or reset; nothing when the decoder is absent
(43_adpcm_feed.md R162, R163, R164). -/
def feedDecoder (b : Board) (v : Byte) (d : Decoder) : List Event :=
  if decoderPresent b d then [.decData d v] else []

/-- A byte fed to the listed decoders in that order. -/
def feedDecoders (b : Board) (v : Byte) (ds : List Decoder) : List Event := ds.flatMap (feedDecoder b v)

/-- The level of one discrete line, which the analog network may read at any time (10_state.md R30). -/
def State.lineLevel (s : State) (i : Line) : Bool := s.regs.line.get i

/-- The level of the microcontroller's external interrupt request line (10_state.md R28, 60_exceptions.md R204). -/
def State.irqLevel (s : State) : Bool := s.regs.irq

end Sys2Proof.Machine
end

