-- ==== Sys2Proof/Machine/Bus.lean ====
section
/-! DEFINITION. The entry points of the block on its buses: a bus access decoded to an operation through the open
`ADDR_*` parameters (20_memory.md R50, R51). The PSG and decoder callbacks and reset are no bus accesses; they are
delivered as transaction words. -/

namespace Sys2Proof.Machine

/-- How many addresses the ADPCM feed takes: 4 with a 2-bit offset (variant A), 2 with a 1-bit offset (variant B)
(20_memory.md R51). -/
def adpcmWindow (b : Board) : Nat :=
  match b.adpcmVariant with
  | .a => 4
  | .b => 2

/-- The ADPCM write at offset `off` above `ADDR_ADPCM_BASE` (20_memory.md R51). -/
def adpcmWriteAt (b : Board) (off : Nat) (v : Byte) : Instr :=
  match b.adpcmVariant with
  | .a => .adwa (BitVec.ofNat 2 off) v
  | .b => .adwb (BitVec.ofNat 1 off) v

/-- An access of the microcontroller's port space: ports 1 and 2, written and read (20_memory.md R50). -/
def decodePortAccess (b : Board) (a : Nat) : Option Byte → Option Instr
  | some v =>
    if a = b.addresses.port1 then some (.wp1 v)
    else if a = b.addresses.port2 then some (.wp2 v)
    else none
  | none =>
    if a = b.addresses.port1 then some .rp1
    else if a = b.addresses.port2 then some .rp2
    else none

/-- An access of the microcontroller's memory-mapped space: the ADPCM feed and the acknowledge, both write only
(20_memory.md R50). -/
def decodeMemoryAccess (b : Board) (a : Nat) : Option Byte → Option Instr
  | some v =>
    if b.addresses.adpcmBase ≤ a ∧ a < b.addresses.adpcmBase + adpcmWindow b then
      some (adpcmWriteAt b (a - b.addresses.adpcmBase) v)
    else if a = b.addresses.ack then some (.ack v)
    else none
  | none => none

/-- An access of the microcontroller's input port: the sound command, read only (20_memory.md R50). -/
def decodeInputAccess (b : Board) (a : Nat) : Option Byte → Option Instr
  | some _ => none
  | none => if a = b.addresses.cmdRead then some .rcl else none

/-- An access of the main-system bus: the command latch, write only (20_memory.md R50). -/
def decodeMainBusAccess (b : Board) (a : Nat) : Option Byte → Option Instr
  | some v => if a = b.addresses.cmdWrite then some (.cmd v) else none
  | none => none

/-- The operation a bus access invokes, `none` when it addresses no entry point of the block (20_memory.md R50, R51;
log 14). -/
def decodeBus (b : Board) (x : BusAccess) : Option Instr :=
  match x.space with
  | .mcuPort => decodePortAccess b x.address x.write
  | .mcuMemory => decodeMemoryAccess b x.address x.write
  | .mcuInput => decodeInputAccess b x.address x.write
  | .mainBus => decodeMainBusAccess b x.address x.write

end Sys2Proof.Machine
end

