-- ==== Sys2Proof/Machine/AdpcmFeed.lean ====
section
/-! DEFINITION. The two ADPCM data feeds (43_adpcm_feed.md). A board wires one of them, and the other is refused
(30_encoding.md R80). -/

namespace Sys2Proof.Machine

/-- ADWA, adpcmWriteA: the byte to every decoder whose offset bit is set, in either order (43_adpcm_feed.md R160);
refused on a board of variant B (30_encoding.md R80). -/
def execAdwa (off : BitVec 2) (v : Byte) (s : State) : Host.Outcome State Fault Refusal :=
  match s.board.adpcmVariant with
  | .a => finish s s.regs (feedDecoders s.board v (inFreeOrder s.opIndex (targetsA off))) none
  | .b => .refused .adpcmVariantNotWired

/-- ADWB, adpcmWriteB: the byte to the one decoder the offset selects (43_adpcm_feed.md R161); refused on a board of
variant A (30_encoding.md R80). -/
def execAdwb (off : BitVec 1) (v : Byte) (s : State) : Host.Outcome State Fault Refusal :=
  match s.board.adpcmVariant with
  | .b => finish s s.regs (feedDecoders s.board v [targetB off]) none
  | .a => .refused .adpcmVariantNotWired

end Sys2Proof.Machine
end

