-- ==== Sys2Proof/Machine/BusLatch.lean ====
section
/-! DEFINITION. The four port operations of the control bus latch (40_control_bus_latch.md). -/

namespace Sys2Proof.Machine

/-- WP1, writePort1: `port1 <- v`, nothing else (40_control_bus_latch.md R100). -/
def execWp1 (v : Byte) (s : State) : Host.Outcome State Fault Refusal :=
  finish s { s.regs with port1 := v } [] none

/-- WP2, writePort2: the access a falling edge commits, then `port2 <- v` (40_control_bus_latch.md R101 to R105). -/
def execWp2 (v : Byte) (s : State) : Host.Outcome State Fault Refusal :=
  let done := commitAccess s.board s.opIndex s.regs v
  finish s { done.1 with port2 := v } done.2 none

/-- RP1, readPort1: the data of the one selected PSG, 0xFF with none selected (40_control_bus_latch.md R106). -/
def execRp1 (s : State) : Host.Outcome State Fault Refusal :=
  let read := readPort1Value s.board s.opIndex s.regs
  finish s s.regs read.2 (some read.1)

/-- RP2, readPort2: a constant, and a diagnostic record (40_control_bus_latch.md R107). -/
def execRp2 (s : State) : Host.Outcome State Fault Refusal :=
  finish s s.regs [.logPort2Read] (some s.board.port2ReadValue)

end Sys2Proof.Machine
end

