-- ==== Sys2Proof/Machine/CommandLatch.lean ====
section
/-! DEFINITION. The command latch and the interrupt-request latch (44_command_latch.md). -/

namespace Sys2Proof.Machine

/-- CMD, submitCommand: bit 7 clear stores the low 7 bits, bit 7 set raises the request and leaves `cmd`
(44_command_latch.md R170, R171). -/
def execCmd (c : Byte) (s : State) : Host.Outcome State Fault Refusal :=
  if cmdInt c then
    let raised := driveIrq s.regs true
    finish s raised.1 raised.2 none
  else finish s { s.regs with cmd := cmdVal c } [] none

/-- ACK, irqAck: clears the request, whatever the byte and the latch (44_command_latch.md R172). -/
def execAck (_v : Byte) (s : State) : Host.Outcome State Fault Refusal :=
  let lowered := driveIrq s.regs false
  finish s lowered.1 lowered.2 none

/-- RCL, readCommand: the pending command with bit 7 = 0; the latch keeps it (44_command_latch.md R173). -/
def execRcl (s : State) : Host.Outcome State Fault Refusal :=
  finish s s.regs [] (some (zext8 s.regs.cmd))

end Sys2Proof.Machine
end

