-- ==== Sys2Proof/Machine/DecoderSync.lean ====
section
/-! DEFINITION. The decoder synchronizer (41_decoder_sync.md). -/

namespace Sys2Proof.Machine

/-- SMP, sampleConsumed: an NMI pulse and then the secondary's clock pulse (41_decoder_sync.md R130, R131). -/
def execSmp (s : State) : Host.Outcome State Fault Refusal :=
  finish s s.regs (nmiPulse ++ secondaryClockPulse s.board) none

end Sys2Proof.Machine
end

