-- ==== Sys2Proof/Machine/PortHandlers.lean ====
section
/-! DEFINITION. The PSG port-B and port-A callbacks (42_psg_port_handlers.md). -/

namespace Sys2Proof.Machine

/-- PBW, portBWrite: drives the decoders' mode and reset inputs (42_psg_port_handlers.md R140 to R143). -/
def execPbw (b : Byte) (s : State) : Host.Outcome State Fault Refusal :=
  finish s (driveDecoders s.board s.regs b) (driveDecodersEvents s.board b) none

/-- PAW, portAWrite: drives the four discrete lines (42_psg_port_handlers.md R144, R145). -/
def execPaw (a : Byte) (s : State) : Host.Outcome State Fault Refusal :=
  finish s { s.regs with line := linesOf a } (lineEvents s.board a) none

end Sys2Proof.Machine
end

