-- ==== Sys2Proof/Machine/ResetOp.lean ====
section
/-! DEFINITION. The reset operation (70_reset_and_hazards.md R230). -/

namespace Sys2Proof.Machine

/-- RST, reset: every field of the record to its reset value, no event (70_reset_and_hazards.md R230). The board and
the inputs still to come are the environment's and stay (log 19). -/
def execRst (s : State) : Host.Outcome State Fault Refusal :=
  finish s (resetRegisters s.board) [] none

end Sys2Proof.Machine
end

