-- ==== Sys2Proof/Machine/Dispatch.lean ====
section
/-! DEFINITION. exec: one arm for each operation of 30_encoding.md R79, each one call of its meaning. -/

namespace Sys2Proof.Machine

def exec (i : Instr) (s : State) : Host.Outcome State Fault Refusal :=
  match i with
  | .wp1 v => Sys2Proof.Machine.execWp1 v s
  | .wp2 v => Sys2Proof.Machine.execWp2 v s
  | .rp1 => Sys2Proof.Machine.execRp1 s
  | .rp2 => Sys2Proof.Machine.execRp2 s
  | .smp => Sys2Proof.Machine.execSmp s
  | .pbw b => Sys2Proof.Machine.execPbw b s
  | .paw a => Sys2Proof.Machine.execPaw a s
  | .adwa off v => Sys2Proof.Machine.execAdwa off v s
  | .adwb off v => Sys2Proof.Machine.execAdwb off v s
  | .cmd c => Sys2Proof.Machine.execCmd c s
  | .ack v => Sys2Proof.Machine.execAck v s
  | .rcl => Sys2Proof.Machine.execRcl s
  | .rst => Sys2Proof.Machine.execRst s

end Sys2Proof.Machine
end

