-- ==== Sys2Proof/Machine/HostInterface.lean ====
section
/-! DEFINITION. What the environment does to the block (60_exceptions.md R217): configure it, deliver an operation,
save and restore a snapshot, and place a transaction word as the next operation. -/

namespace Sys2Proof.Machine

/-- Configure: fix the board's parameters for the run and reset the block (70_reset_and_hazards.md R231), or refuse a
board that lacks a required collaborator (60_exceptions.md R201, R217). -/
def configure (b : Board) : Except Refusal State :=
  if b.hasCollaborators then .ok (State.resetOn b) else .error .requiredCollaboratorMissing

/-- Snapshot save: exactly the fields of 10_state.md R20 (R35). -/
def saveSnapshot (s : State) : Registers := s.regs

/-- A snapshot supplies the fields that exist on the board: decoder 2's exactly when it is present (10_state.md R20,
60_exceptions.md R217; log 15). -/
def snapshotComplete (b : Board) (r : Registers) : Bool := r.decoder2.isSome == b.secondaryPresent

/-- Snapshot restore: sets every field, emits nothing, performs no access (10_state.md R35). -/
def restoreSnapshot (r : Registers) (s : State) : Host.Outcome State Fault Refusal :=
  if snapshotComplete s.board r then .next { s with regs := r, out := [], result := none }
  else .refused .incompleteSnapshot

/-- The delivery of one transaction word: its operation, or a refusal by name (30_encoding.md R79, R80). -/
def deliverWord (w : Word) (s : State) : Host.Outcome State Fault Refusal :=
  match decode w with
  | .ok i => exec i s
  | .error why => .refused (.reservedWord why)

/-- The delivery of one bus access: the operation it invokes (20_memory.md R51), or a refusal by name (log 14). -/
def deliverBus (x : BusAccess) (s : State) : Host.Outcome State Fault Refusal :=
  match decodeBus s.board x with
  | some i => exec i s
  | none => .refused .notAnEntryPoint

/-- The delivery of one input of the environment. -/
def deliver (x : Input) (s : State) : Host.Outcome State Fault Refusal :=
  match x with
  | .word w => deliverWord w s
  | .bus a => deliverBus a s
  | .restore r => restoreSnapshot r s

/-- With no operation delivered the block does nothing: "the core never initiates" (60_exceptions.md R211; log 12). -/
def idle (s : State) : State := { s with out := [], result := none }

/-- One step: the next input of the environment is taken off the list and delivered; with none, the block is idle. -/
def takeInput (s : State) : Host.Outcome State Fault Refusal :=
  match s.pending with
  | [] => .next (idle s)
  | x :: rest => deliver x { s with pending := rest }

/-- The board on which a word's operation exists: ADWA's variant for OP 0x8, ADWB's for OP 0x9, and the board as it is
for every other word (30_encoding.md R79, R80; log 11). -/
def boardForWord (w : Word) (b : Board) : Board :=
  match decode w with
  | .ok (.adwa _ _) => { b with adpcmVariant := .a }
  | .ok (.adwb _ _) => { b with adpcmVariant := .b }
  | _ => b

/-- The state whose next input is the word, on a board that wires its operation (log 11). -/
def placeWord (w : Word) (s : State) : State :=
  { s with pending := .word w :: s.pending, board := boardForWord w s.board }

end Sys2Proof.Machine
end

