-- ==== Sys2Proof/Machine/Step.lean ====
section
/-! DEFINITION. One step of the machine, and the placing of a table word as the next operation. -/

namespace Sys2Proof.Machine

/-- One step: on a board with the required collaborators (60_exceptions.md R201) the next input is delivered as one
atomic operation (00_scope.md R9, 20_memory.md R57, R58). -/
def step (s : State) : Host.Outcome State Fault Refusal :=
  if s.board.hasCollaborators then takeInput s else .refused .requiredCollaboratorMissing

/-- The state in which the table word `w` of `nbits` bits is the next operation: the word stands first in the list of
inputs, and the board wires the variant the word's operation exists on (log 11). -/
def State.withFetchWord (s : State) (nbits w : Nat) : State :=
  placeWord (BitVec.ofNat 16 (w % 2 ^ nbits)) s

end Sys2Proof.Machine
end

