-- ==== Sys2Proof/Safety.lean ====
section
/-! DEFINITION. The terms the statements use: what R141 asks of any `SEC_MODE`; runs of operations and what they emit, the agents and what each may
invoke (60_exceptions.md R211), the invariant of the decoders' drive registers, the number of PSG accesses of an edge,
the levels and selections that a list of events leaves, and the relation of two states that differ only in bits of
`port2` without meaning. -/

namespace Sys2Proof.Machine

/-- The two properties 42_psg_port_handlers.md R141 states of any `SEC_MODE`, for the sample-rate sub-field `rate` (the
set bits of the mask) and the slave setting `slave`: the result does not depend on `f`'s sub-field, and the result's
sub-field is always the slave setting. -/
def forcesSlave (rate slave : Mode) (g : Mode → Mode) : Prop :=
  (∀ f h : Mode, f &&& ~~~rate = h &&& ~~~rate → g f = g h) ∧ ∀ f : Mode, g f &&& rate = slave &&& rate

/-- A run of operations, each on the state the one before left (20_memory.md R58): the last state and all the events in
emission order (R59). `none` when some operation is refused. -/
def runOps : List Instr → State → Option (State × List Event)
  | [], s => some (s, [])
  | i :: is, s =>
    match exec i s with
    | .next t =>
      match runOps is t with
      | some (u, evs) => some (u, t.out ++ evs)
      | none => none
    | .fault _ => none
    | .refused _ => none

/-- The agents that act on the block (60_exceptions.md R211). -/
inductive Agent where
  | microcontroller
  | mainCpu
  | psg (t : Psg)
  | decoder (d : Decoder)
  | analogNetwork
  | host
  deriving DecidableEq, Repr

/-- The operations each agent invokes (60_exceptions.md R211); the port callbacks come from the PSG the board wires
(42_psg_port_handlers.md R146). The block checks none of this (R210). -/
def mayInvoke (b : Board) (g : Agent) : Instr → Bool
  | .wp1 _ => decide (g = .microcontroller)
  | .wp2 _ => decide (g = .microcontroller)
  | .rp1 => decide (g = .microcontroller)
  | .rp2 => decide (g = .microcontroller)
  | .smp => decide (g = .decoder .primary)
  | .pbw _ => decide (g = .psg b.portBPsg)
  | .paw _ => decide (g = .psg b.portAPsg)
  | .adwa _ _ => decide (g = .microcontroller)
  | .adwb _ _ => decide (g = .microcontroller)
  | .cmd _ => decide (g = .mainCpu)
  | .ack _ => decide (g = .microcontroller)
  | .rcl => decide (g = .microcontroller)
  | .rst => decide (g = .host)

/-- The decoders' drive registers agree with one another and with the board: a decoder's mode and reset are driven
together; decoder 2's registers exist exactly on a board with the secondary; and its mode is `SEC_MODE` of decoder 1's
(10_state.md R20, R25, 42_psg_port_handlers.md R140). -/
def decodersConsistent (b : Board) (r : Registers) : Prop :=
  r.decoder1.mode.isSome = r.decoder1.reset.isSome ∧
    (b.secondaryPresent = false → r.decoder2 = none) ∧
    (b.secondaryPresent = true →
      ∃ d : DecoderDrive, r.decoder2 = some d ∧ d.mode = r.decoder1.mode.map b.secMode ∧
        d.reset.isSome = r.decoder1.reset.isSome)

/-- A state whose drive registers are consistent, and so is every snapshot the host has yet to restore. -/
def State.consistent (s : State) : Prop :=
  decodersConsistent s.board s.regs ∧ ∀ r : Registers, Input.restore r ∈ s.pending → decodersConsistent s.board r

/-- The events that are PSG accesses of the latch: a register select or a data write. -/
def isPsgAccess : Event → Bool
  | .psgAddr _ _ => true
  | .psgData _ _ _ => true
  | _ => false

/-- How many PSG accesses a write of `v` over `prev` commits: the number of select bits set in the decode source on a
falling edge, 0 without one (40_control_bus_latch.md R108). -/
def edgeAccesses (b : Board) (prev v : Byte) : Nat :=
  if fall prev v then
    (sel b (decodeSource b prev v) .m).toNat + (sel b (decodeSource b prev v) .l).toNat
  else 0

/-- `edgeAccesses` summed over a sequence of writePort2 values (40_control_bus_latch.md R108). -/
def sumEdgeAccesses (b : Board) : Byte → List Byte → Nat
  | _, [] => 0
  | prev, v :: vs => edgeAccesses b prev v + sumEdgeAccesses b v vs

/-- The strict 1-to-0 transitions of bit 0 in a sequence of writePort2 values. -/
def strictFalls : Byte → List Byte → Nat
  | _, [] => 0
  | prev, v :: vs => (prev.getLsbD 0 && !v.getLsbD 0).toNat + strictFalls v vs

/-- Every edge of a sequence of writePort2 values has exactly one select bit set in its decode source. -/
def oneSelectPerEdge (b : Board) : Byte → List Byte → Prop
  | _, [] => True
  | prev, v :: vs =>
    ((prev.getLsbD 0 = true ∧ v.getLsbD 0 = false) →
        sel b (decodeSource b prev v) .m ≠ sel b (decodeSource b prev v) .l) ∧
      oneSelectPerEdge b v vs

/-- The byte last selected on PSG `t` by a list of events, starting from `a` (10_state.md R24). -/
def lastSelect (t : Psg) : Option Byte → List Event → Option Byte
  | a, [] => a
  | a, .psgAddr u v :: evs => lastSelect t (if u = t then some v else a) evs
  | a, _ :: evs => lastSelect t a evs

/-- The level of the secondary's clock input after a list of events, starting from a level (10_state.md R27). -/
def clockLevel : Bool → List Event → Bool
  | l, [] => l
  | _, .secClk b :: evs => clockLevel b evs
  | l, _ :: evs => clockLevel l evs

/-- The command a list of operations leaves pending, starting from one: the last CMD with bit 7 clear, and no reset
among them (44_command_latch.md R174). -/
def lastCommand : Command → List Instr → Command
  | a, [] => a
  | a, .cmd c :: is => lastCommand (if c.getLsbD 7 then a else c.extractLsb' 0 7) is
  | a, _ :: is => lastCommand a is

/-- A line of the four set to a level. -/
def setLine (x : Lines) (i : Line) (b : Bool) : Lines :=
  match i with
  | .bd => { x with bd := b }
  | .sd => { x with sd := b }
  | .oh => { x with oh := b }
  | .ch => { x with ch := b }

/-- A decoder's registers with one input driven. -/
def driveMode (d : DecoderDrive) (m : Mode) : DecoderDrive := { d with mode := some m }

/-- A decoder's registers with its reset input driven. -/
def driveReset (d : DecoderDrive) (b : Bool) : DecoderDrive := { d with reset := some b }

/-- What a collaborator that only sees the events knows of the block's driven registers: each event of 10_state.md R32
that drives a line sets the register that holds the line's level. -/
def observe (r : Registers) : Event → Registers
  | .psgAddr t v => r.setPsgAddr t (some v)
  | .psgData _ _ _ => r
  | .psgRead _ _ _ => r
  | .nmi => r
  | .secClk _ => r
  | .decMode .primary m => { r with decoder1 := driveMode r.decoder1 m }
  | .decMode .secondary m => { r with decoder2 := some (driveMode (r.decoder2.getD undrivenDecoder) m) }
  | .decReset .primary b => { r with decoder1 := driveReset r.decoder1 b }
  | .decReset .secondary b => { r with decoder2 := some (driveReset (r.decoder2.getD undrivenDecoder) b) }
  | .decData _ _ => r
  | .irq b => { r with irq := b }
  | .line i b => { r with line := setLine r.line i b }
  | .logPort2Read => r

/-- Two records that agree on everything the events of a board report: the select latches, the decoders' drive
registers, the interrupt line and the connected discrete lines, that is, all but `port1`, `port2`, `cmd` and the lines
the board does not connect. -/
def sameDriven (b : Board) (r q : Registers) : Prop :=
  r.psgAddrM = q.psgAddrM ∧ r.psgAddrL = q.psgAddrL ∧ r.decoder1 = q.decoder1 ∧ r.decoder2 = q.decoder2 ∧
    r.irq = q.irq ∧ ∀ i : Line, b.linePresent.get i = true → r.line.get i = q.line.get i

/-- An event addressed to the secondary decoder (00_scope.md R11). -/
def addressesSecondary : Event → Bool
  | .secClk _ => true
  | .decMode .secondary _ => true
  | .decReset .secondary _ => true
  | .decData .secondary _ => true
  | _ => false

/-- An operation that writes a register of the record (the "State written" lines of files 40 to 44 and 70). -/
def writesState : Instr → Bool
  | .wp1 _ => true
  | .wp2 _ => true
  | .rp1 => false
  | .rp2 => false
  | .smp => false
  | .pbw _ => true
  | .paw _ => true
  | .adwa _ _ => false
  | .adwb _ _ => false
  | .cmd _ => true
  | .ack _ => true
  | .rcl => false
  | .rst => true

/-- Two states that differ at most in the bits of `port2` without meaning: they agree on the strobe, the phase and
both select bits, and on every other field (30_encoding.md R70, R81). -/
def sameButIgnoredPort2Bits (s t : State) : Prop :=
  t = { s with regs := { s.regs with port2 := t.regs.port2 } } ∧
    stb t.regs.port2 = stb s.regs.port2 ∧ ph t.regs.port2 = ph s.regs.port2 ∧
    ∀ p : Psg, sel s.board t.regs.port2 p = sel s.board s.regs.port2 p

end Sys2Proof.Machine
end

