-- ==== Sys2Proof/Certificates/Slice0/Obligations.lean ====
section
/-! DEFINITION. The statements for the provers, one definition each. A docstring names the rule of spec/ a statement
formalises, or says that it states a choice (the spec's own decision, or the model's) and names it. Where an
operation's next state is written `s.after r evs res`, that is the whole frame: the record becomes `r`, the outputs
`evs` and `res`, the operation counter advances by one, and the board and the inputs to come are unchanged. -/

open Sys2Proof Sys2Proof.Machine

/-! ### The control bus latch -/

/-- 40_control_bus_latch.md R100: writePort1 stores its operand and does nothing else, in every state. -/
def Obligations.WritePort1StoresItsOperandOnly : Prop :=
  ∀ (v : Byte) (s : State),
    decode (0x10#8 ++ v) = .ok (.wp1 v) ∧
      exec (.wp1 v) s = .next (s.after { s.regs with port1 := v } [] none)

/-- 10_state.md R23: a write of `port2` without a 1-to-0 transition of bit 0 only stores its value. -/
def Obligations.WritePort2WithoutEdgeOnlyStores : Prop :=
  ∀ (v : Byte) (s : State), ¬(s.regs.port2.getLsbD 0 = true ∧ v.getLsbD 0 = false) →
    exec (.wp2 v) s = .next (s.after { s.regs with port2 := v } [] none)

/-- 40_control_bus_latch.md R101, the whole operation, for both settings of the decode source `d`: on a falling edge
one access for each selected PSG, in either order, a register select setting that PSG's latch to `port1`; then `port2`
takes the value. R101 itself decodes from the new value; the case of PREVIOUS, where `d` is the stored `port2`, is
R102's hedge (the spec's decision D12; log 9). -/
def Obligations.WritePort2CommitsOnFallingEdge : Prop :=
  ∀ (v d : Byte) (s : State),
    d = (if s.board.latchDecodeSource = .new then v else s.regs.port2) →
    decode (0x20#8 ++ v) = .ok (.wp2 v) ∧
    ∃ evs : List Event,
      exec (.wp2 v) s = .next (s.after
        { s.regs with
          port2 := v
          psgAddrM :=
            if s.regs.port2.getLsbD 0 = true ∧ v.getLsbD 0 = false ∧ d.getLsbD 2 = true ∧
              d.getLsbD s.board.selBitM = true then some s.regs.port1 else s.regs.psgAddrM
          psgAddrL :=
            if s.regs.port2.getLsbD 0 = true ∧ v.getLsbD 0 = false ∧ d.getLsbD 2 = true ∧
              d.getLsbD s.board.selBitL = true then some s.regs.port1 else s.regs.psgAddrL }
        evs none) ∧
      evs.Perm
        (if s.regs.port2.getLsbD 0 = true ∧ v.getLsbD 0 = false then
          (if d.getLsbD s.board.selBitM then
            [if d.getLsbD 2 then Event.psgAddr .m s.regs.port1
              else Event.psgData .m s.regs.psgAddrM s.regs.port1] else []) ++
          (if d.getLsbD s.board.selBitL then
            [if d.getLsbD 2 then Event.psgAddr .l s.regs.port1
              else Event.psgData .l s.regs.psgAddrL s.regs.port1] else [])
        else [])

/-- 40_control_bus_latch.md R109, which the spec derives from R101 and R103: a data edge with both selects emits one
data write on each PSG, in either order, with the same byte, and changes no select latch. -/
def Obligations.BroadcastDataEdgeWritesBothPsgs : Prop :=
  ∀ (v : Byte) (s : State),
    fall s.regs.port2 v = true →
    ph (decodeSource s.board s.regs.port2 v) = false →
    (∀ p : Psg, sel s.board (decodeSource s.board s.regs.port2 v) p = true) →
    ∃ evs : List Event,
      exec (.wp2 v) s = .next (s.after { s.regs with port2 := v } evs none) ∧
      (evs = [.psgData .m s.regs.psgAddrM s.regs.port1, .psgData .l s.regs.psgAddrL s.regs.port1] ∨
        evs = [.psgData .l s.regs.psgAddrL s.regs.port1, .psgData .m s.regs.psgAddrM s.regs.port1])

/-- 40_control_bus_latch.md R105: a data edge that selects PSG `t` writes `port1` to the register its latch names (or
`none`) and leaves every latch; and a select edge, a strobe-high write and a data edge with `port1` unchanged reach
the register just selected. -/
def Obligations.DataWriteReachesTheSelectedRegister : Prop :=
  (∀ (t : Psg) (v : Byte) (s : State),
    fall s.regs.port2 v = true →
    ph (decodeSource s.board s.regs.port2 v) = false →
    sel s.board (decodeSource s.board s.regs.port2 v) t = true →
    ∃ u : State, exec (.wp2 v) s = .next u ∧ .psgData t (s.regs.psgAddr t) s.regs.port1 ∈ u.out ∧
      ∀ p : Psg, u.regs.psgAddr p = s.regs.psgAddr p) ∧
  ∀ (t : Psg) (v₁ v₂ v₃ : Byte) (s : State),
    fall s.regs.port2 v₁ = true →
    ph (decodeSource s.board s.regs.port2 v₁) = true →
    sel s.board (decodeSource s.board s.regs.port2 v₁) t = true →
    stb v₂ = true →
    stb v₃ = false →
    ph (decodeSource s.board v₂ v₃) = false →
    sel s.board (decodeSource s.board v₂ v₃) t = true →
    ∃ (u : State) (evs : List Event), runOps [.wp2 v₁, .wp2 v₂, .wp2 v₃] s = some (u, evs) ∧
      .psgData t (some s.regs.port1) s.regs.port1 ∈ evs ∧ u.regs.psgAddr t = some s.regs.port1

/-- 70_reset_and_hazards.md R235: however a run of operations without reset goes, a later data edge on PSG `t` reaches
the register of that PSG's most recent register-select; selects of the other PSG do not matter. -/
def Obligations.DataEdgeReachesMostRecentSelect : Prop :=
  ∀ (is : List Instr) (s u : State) (evs : List Event) (t : Psg) (v : Byte),
    runOps is s = some (u, evs) → Instr.rst ∉ is →
    fall u.regs.port2 v = true →
    ph (decodeSource u.board u.regs.port2 v) = false →
    sel u.board (decodeSource u.board u.regs.port2 v) t = true →
    ∃ w : State, exec (.wp2 v) u = .next w ∧
      .psgData t (lastSelect t (s.regs.psgAddr t) evs) u.regs.port1 ∈ w.out

/-- 40_control_bus_latch.md R108, which the spec derives: over any sequence of writePort2 operations the number of PSG
accesses is the sum, over the edges, of the number of selected PSGs; nothing else is emitted. -/
def Obligations.PsgAccessCountIsSumOverEdges : Prop :=
  ∀ (vs : List Byte) (s : State),
    ∃ (u : State) (evs : List Event), runOps (vs.map Instr.wp2) s = some (u, evs) ∧
      (∀ e ∈ evs, isPsgAccess e = true) ∧ evs.length = sumEdgeAccesses s.board s.regs.port2 vs

/-- 95_test_vectors.md L1.1, in the form 90_conflicts.md C5 leaves it: with exactly one select bit set at every edge,
the accesses of a sequence of writePort2 operations are its strict 1-to-0 transitions of bit 0. -/
def Obligations.OneSelectPerEdgeCountsStrictFalls : Prop :=
  ∀ (vs : List Byte) (s : State), oneSelectPerEdge s.board s.regs.port2 vs →
    ∃ (u : State) (evs : List Event), runOps (vs.map Instr.wp2) s = some (u, evs) ∧
      evs.countP isPsgAccess = strictFalls s.regs.port2 vs

/-- 70_reset_and_hazards.md R234, which the spec derives (decision D34): where the phase and both select bits do not
change across the write, the two settings of `LATCH_DECODE_SOURCE` leave the same record and emit the same events. -/
def Obligations.DecodeSourceIrrelevantUnderDiscipline : Prop :=
  ∀ (v : Byte) (s : State),
    ph v = ph s.regs.port2 → (∀ p : Psg, sel s.board v p = sel s.board s.regs.port2 p) →
    ∃ t u : State,
      exec (.wp2 v) { s with board := { s.board with latchDecodeSource := .new } } = .next t ∧
      exec (.wp2 v) { s with board := { s.board with latchDecodeSource := .previous } } = .next u ∧
      u.regs = t.regs ∧ u.out = t.out ∧ u.result = t.result

/-- 10_state.md R21: only writePort1 (and reset, R230) writes `port1`; and but for a writePort2 that makes a falling
edge, an operation's events, its returned byte and its other register changes do not depend on `port1`. -/
def Obligations.Port1WrittenByWp1AndSeenByEdgesOnly : Prop :=
  (∀ (i : Instr) (s t : State), exec i s = .next t → t.regs.port1 ≠ s.regs.port1 →
    (∃ v : Byte, i = .wp1 v) ∨ i = .rst) ∧
  ∀ (i : Instr) (p : Byte) (s t : State),
    (∀ v : Byte, i = .wp2 v → fall s.regs.port2 v = false) →
    exec i s = .next t →
    ∃ u : State, exec i { s with regs := { s.regs with port1 := p } } = .next u ∧
      u.out = t.out ∧ u.result = t.result ∧ u.regs = { t.regs with port1 := u.regs.port1 }

/-- 40_control_bus_latch.md readPort1 and 95_test_vectors.md L1.3 (the oracle of the rule is decision D26): with
neither select bit set the read returns 0xFF and reads no PSG, in every state. -/
def Obligations.ReadPort1WithNoSelectReturnsFF : Prop :=
  ∀ s : State, s.regs.port2.getLsbD s.board.selBitM = false → s.regs.port2.getLsbD s.board.selBitL = false →
    exec .rp1 s = .next (s.after s.regs [] (some 0xFF))

/-- 40_control_bus_latch.md readPort1 with decisions D26 and D36: with one select bit set, or both under M_PRIORITY,
the read returns some byte of the one selected PSG, M first, records it, and changes no register. -/
def Obligations.ReadPort1ReadsTheSelectedPsg : Prop :=
  ∀ (s : State) (t : Psg),
    (t = .m ∧ s.regs.port2.getLsbD s.board.selBitM = true ∧
        (s.board.readBothPolicy = .mPriority ∨ s.regs.port2.getLsbD s.board.selBitL = false) ∨
      t = .l ∧ s.regs.port2.getLsbD s.board.selBitM = false ∧ s.regs.port2.getLsbD s.board.selBitL = true) →
    ∃ r : Byte, exec .rp1 s = .next (s.after s.regs [.psgRead t (s.regs.psgAddr t) r] (some r))

/-- 93_implementation_defined.md U1: with both select bits set under `READ_BOTH_POLICY = ANY` the read returns some
byte, names no PSG and changes no register. -/
def Obligations.ReadPort1WithBothSelectsUnderAny : Prop :=
  ∀ s : State, s.board.readBothPolicy = .any →
    s.regs.port2.getLsbD s.board.selBitM = true → s.regs.port2.getLsbD s.board.selBitL = true →
    ∃ r : Byte, exec .rp1 s = .next (s.after s.regs [] (some r))

/-- 40_control_bus_latch.md readPort2 with decisions D4 and D27: the constant of the board, and the diagnostic
record. -/
def Obligations.ReadPort2ReturnsTheConstantAndLogs : Prop :=
  decode 0x4000 = .ok .rp2 ∧
    ∀ s : State, exec .rp2 s = .next (s.after s.regs [.logPort2Read] (some s.board.port2ReadValue))

/-! ### The decoder synchronizer -/

/-- 41_decoder_sync.md R130 and R131: NMI always, then the clock pulse, rising before falling, exactly when the
secondary is present; no register changes. -/
def Obligations.SampleConsumedPulsesNmiThenClock : Prop :=
  decode 0x5000 = .ok .smp ∧
    ∀ s : State, exec .smp s = .next (s.after s.regs
      (if s.board.secondaryPresent then [.nmi, .secClk true, .secClk false] else [.nmi]) none)

/-- 41_decoder_sync.md R133, over every run: exactly one NMI for each sampleConsumed, exactly one rising and one
falling clock edge for each if and only if the secondary is present; one sampleConsumed emits them together and leaves
no state. -/
def Obligations.OneNmiAndOneClockPairPerSample : Prop :=
  (∀ (is : List Instr) (s u : State) (evs : List Event), runOps is s = some (u, evs) →
    evs.count .nmi = is.count .smp ∧
    evs.count (.secClk true) = (if s.board.secondaryPresent then is.count .smp else 0) ∧
    evs.count (.secClk false) = (if s.board.secondaryPresent then is.count .smp else 0)) ∧
  ∀ s : State, exec .smp s = .next (s.after s.regs
    ([.nmi] ++ if s.board.secondaryPresent then [.secClk true, .secClk false] else []) none)

/-- 10_state.md R27, which the spec derives: after any run of operations the secondary's clock input is at level 0. -/
def Obligations.ClockLevelIsLowBetweenSteps : Prop :=
  ∀ (is : List Instr) (s u : State) (evs : List Event), runOps is s = some (u, evs) → clockLevel false evs = false

/-- 60_exceptions.md R206 (decision D31): no single step emits both an NMI and an IRQ event. -/
def Obligations.NoStepEmitsNmiAndIrq : Prop :=
  ∀ (i : Instr) (s t : State) (b : Bool), exec i s = .next t → ¬(.nmi ∈ t.out ∧ .irq b ∈ t.out)

/-! ### The port handlers -/

/-- 42_psg_port_handlers.md portBWrite, with the event order of decision D10 and the parameter `SEC_MODE` of decision
D9: the whole operation. -/
def Obligations.PortBWriteDrivesTheDecoders : Prop :=
  ∀ (v : Byte) (s : State),
    decode (0x60#8 ++ v) = .ok (.pbw v) ∧
    exec (.pbw v) s = .next (s.after
      { s.regs with
        decoder1 := { mode := some (v.extractLsb' 2 3), reset := some (v.getLsbD 0) }
        decoder2 :=
          if s.board.secondaryPresent then
            some { mode := some (s.board.secMode (v.extractLsb' 2 3)), reset := some (v.getLsbD 1) }
          else s.regs.decoder2 }
      (if s.board.secondaryPresent then
        [.decMode .primary (v.extractLsb' 2 3), .decMode .secondary (s.board.secMode (v.extractLsb' 2 3)),
          .decReset .primary (v.getLsbD 0), .decReset .secondary (v.getLsbD 1)]
      else [.decMode .primary (v.extractLsb' 2 3), .decReset .primary (v.getLsbD 0)])
      none)

/-- 42_psg_port_handlers.md R142: bits 0 and 1 set the two decoders' reset levels, whatever they were; no operation
but portBWrite (and reset) changes a driven level, however long a run; and writing the same byte twice is writing it
once. -/
def Obligations.DecoderResetIsALevel : Prop :=
  (∀ (v : Byte) (s : State), ∃ t u : State,
    exec (.pbw v) s = .next t ∧ t.regs.decoder1.reset = some (v.getLsbD 0) ∧
    (s.board.secondaryPresent = true → ∃ d : DecoderDrive,
      t.regs.decoder2 = some d ∧ d.reset = some (v.getLsbD 1)) ∧
    exec (.pbw v) t = .next u ∧ u.regs = t.regs) ∧
  ∀ (is : List Instr) (s u : State) (evs : List Event),
    runOps is s = some (u, evs) → (∀ v : Byte, Instr.pbw v ∉ is) → Instr.rst ∉ is →
    u.regs.decoder1 = s.regs.decoder1 ∧ u.regs.decoder2 = s.regs.decoder2

/-- 42_psg_port_handlers.md R141 (decision D9): on every board `SEC_MODE` has the two properties R141 asks for, with the
board's sample-rate sub-field, of at least one bit, and its slave setting; every mode any operation drives on the
secondary is in slave timing; and no `SEC_MODE` with the two properties is left out. That the sub-field and the setting
are parameters is the model's choice (log 27). -/
def Obligations.SecondaryAlwaysDrivenAsSlave : Prop :=
  (∀ b : Board, b.secRateField.val ≠ 0 ∧ forcesSlave b.secRateField.val b.secSlaveSetting b.secMode) ∧
  (∀ (m : Mode) (i : Instr) (s t : State), exec i s = .next t → .decMode .secondary m ∈ t.out →
    m &&& s.board.secRateField.val = s.board.secSlaveSetting &&& s.board.secRateField.val) ∧
  ∀ (rate slave : Mode) (g : Mode → Mode), rate ≠ 0 → forcesSlave rate slave g →
    ∃ b : Board, b.secRateField.val = rate ∧ b.secSlaveSetting = slave ∧ ∀ f : Mode, b.secMode f = g f

/-- 42_psg_port_handlers.md R144: the four lines take the port-A byte's low four bits, whatever they were, and each
connected line's level is emitted on every write, in index order. -/
def Obligations.PortAWriteDrivesTheLines : Prop :=
  ∀ (a : Byte) (s : State),
    decode (0x70#8 ++ a) = .ok (.paw a) ∧
    exec (.paw a) s = .next (s.after
      { s.regs with line := { bd := a.getLsbD 0, sd := a.getLsbD 1, oh := a.getLsbD 2, ch := a.getLsbD 3 } }
      ((if s.board.linePresent.bd then [.line .bd (a.getLsbD 0)] else []) ++
        (if s.board.linePresent.sd then [.line .sd (a.getLsbD 1)] else []) ++
        (if s.board.linePresent.oh then [.line .oh (a.getLsbD 2)] else []) ++
        (if s.board.linePresent.ch then [.line .ch (a.getLsbD 3)] else []))
      none)

/-! ### The ADPCM data feed -/

/-- 43_adpcm_feed.md R160 and 30_encoding.md R74: on a board of variant A the byte goes to decoder 1 when offset bit 0
is set and to decoder 2 when offset bit 1 is set and it is present, in either order, whatever the decoders' registers;
no register changes. The operation exists only on that variant. -/
def Obligations.AdpcmWriteAFeedsEveryAddressedDecoder : Prop :=
  ∀ (off : BitVec 2) (v : Byte) (s : State),
    decode ((0b100000#6 ++ off) ++ v) = .ok (.adwa off v) ∧
    (s.board.adpcmVariant = .a → ∃ evs : List Event,
      exec (.adwa off v) s = .next (s.after s.regs evs none) ∧
      evs.Perm ((if off.getLsbD 0 then [.decData .primary v] else []) ++
        (if off.getLsbD 1 && s.board.secondaryPresent then [.decData .secondary v] else []))) ∧
    (s.board.adpcmVariant = .b → ∀ t : State, exec (.adwa off v) s ≠ .next t)

/-- 43_adpcm_feed.md R161 and 30_encoding.md R75: on a board of variant B the byte goes to decoder 1 at offset 0, and
at offset 1 to decoder 2 when it is present and nowhere otherwise; no register changes. The operation exists only on
that variant. -/
def Obligations.AdpcmWriteBFeedsOneDecoder : Prop :=
  ∀ (off : BitVec 1) (v : Byte) (s : State),
    decode ((0b1001000#7 ++ off) ++ v) = .ok (.adwb off v) ∧
    (s.board.adpcmVariant = .b →
      exec (.adwb off v) s = .next (s.after s.regs
        (if off = 0 then [.decData .primary v]
          else if s.board.secondaryPresent then [.decData .secondary v] else []) none)) ∧
    (s.board.adpcmVariant = .a → ∀ t : State, exec (.adwb off v) s ≠ .next t)

/-- 30_encoding.md R80 (decision D29): the ADPCM write of the variant the board does not wire is refused by name. -/
def Obligations.UnwiredAdpcmVariantIsRefused : Prop :=
  (∀ (off : BitVec 2) (v : Byte) (s : State), s.board.adpcmVariant = .b →
    exec (.adwa off v) s = .refused .adpcmVariantNotWired) ∧
  ∀ (off : BitVec 1) (v : Byte) (s : State), s.board.adpcmVariant = .a →
    exec (.adwb off v) s = .refused .adpcmVariantNotWired

/-! ### The command latch and the interrupt-request latch -/

/-- 44_command_latch.md R170: a command with bit 7 clear stores its low 7 bits and emits nothing; one with bit 7 set
raises the request, emits its level even if it was raised, and leaves `cmd`. -/
def Obligations.SubmitCommandStoresOrRequests : Prop :=
  ∀ (c : Byte) (s : State),
    decode (0xA0#8 ++ c) = .ok (.cmd c) ∧
    (c.getLsbD 7 = false → exec (.cmd c) s = .next (s.after { s.regs with cmd := c.extractLsb' 0 7 } [] none)) ∧
    (c.getLsbD 7 = true → exec (.cmd c) s = .next (s.after { s.regs with irq := true } [.irq true] none))

/-- 44_command_latch.md R171: once set, the request stays through any run of operations without acknowledge or reset;
a second request while it is set changes no register; one acknowledge clears it. -/
def Obligations.IrqStaysSetUntilAcknowledged : Prop :=
  (∀ (is : List Instr) (s u : State) (evs : List Event),
    runOps is s = some (u, evs) → s.regs.irq = true → (∀ v : Byte, Instr.ack v ∉ is) → Instr.rst ∉ is →
    u.regs.irq = true) ∧
  (∀ (c : Byte) (s : State), s.regs.irq = true → c.getLsbD 7 = true →
    ∃ t : State, exec (.cmd c) s = .next t ∧ t.regs = s.regs) ∧
  ∀ (v : Byte) (s : State), ∃ t : State, exec (.ack v) s = .next t ∧ t.regs.irq = false

/-- 44_command_latch.md irqAck with decision D16: the request is cleared whatever the byte and the latch, and the
line's level is emitted. -/
def Obligations.AcknowledgeClearsTheRequest : Prop :=
  ∀ (v : Byte) (s : State),
    decode (0xB0#8 ++ v) = .ok (.ack v) ∧
      exec (.ack v) s = .next (s.after { s.regs with irq := false } [.irq false] none)

/-- 44_command_latch.md readCommand with decision D14: the pending command with bit 7 clear; nothing changes. -/
def Obligations.ReadCommandReturnsThePendingCommand : Prop :=
  decode 0xC000 = .ok .rcl ∧
    ∀ s : State, exec .rcl s = .next (s.after s.regs [] (some (0#1 ++ s.regs.cmd)))

/-- 44_command_latch.md readCommand with 10_state.md R29: after any run of operations without reset, the command a read
returns is the last one submitted with bit 7 clear; the ones before it are lost. That reads within the run do not clear
the latch is the spec's decision D14 (R173; log 20). -/
def Obligations.CommandLatchHoldsTheLastCommand : Prop :=
  ∀ (is : List Instr) (s u : State) (evs : List Event),
    runOps is s = some (u, evs) → Instr.rst ∉ is →
    ∃ t : State, exec .rcl u = .next t ∧ t.result = some (0#1 ++ lastCommand s.regs.cmd is)

/-- 60_exceptions.md R204: a bit-7 command emits `Irq(1)` and an acknowledge `Irq(0)`; every `Irq` event carries the
level the latch is left at; and but for reset, which emits nothing, the latch changes only with its event. -/
def Obligations.IrqLineFollowsTheLatch : Prop :=
  (∀ (c : Byte) (s : State), c.getLsbD 7 = true →
    ∃ t : State, exec (.cmd c) s = .next t ∧ t.out = [.irq true]) ∧
  (∀ (v : Byte) (s : State), ∃ t : State, exec (.ack v) s = .next t ∧ t.out = [.irq false]) ∧
  ∀ (i : Instr) (s t : State), exec i s = .next t →
    (∀ b : Bool, .irq b ∈ t.out → t.regs.irq = b) ∧
    (i ≠ .rst → t.regs.irq ≠ s.regs.irq → .irq t.regs.irq ∈ t.out)

/-! ### Reset, configuration, snapshots -/

/-- 70_reset_and_hazards.md reset with decision D3 (log 3): every field of the record takes its reset value and no
event is emitted. The board, the inputs to come and the operation counter go on (the model's choice, log 19). -/
def Obligations.ResetOperationSetsEveryField : Prop :=
  decode 0xD000 = .ok .rst ∧
    ∀ s : State, exec .rst s = .next (s.after
      { port1 := 0x00
        port2 := s.board.port2Reset
        psgAddrM := none
        psgAddrL := none
        decoder1 := { mode := none, reset := none }
        decoder2 := if s.board.secondaryPresent then some { mode := none, reset := none } else none
        irq := false
        cmd := 0
        line := { bd := false, sd := false, oh := false, ch := false } } [] none)

/-- 10_state.md section on reset values with decision D3 (log 3): what the record holds right after reset, on any
board and on the standard one (whose parameters are the model's choice, log 2). -/
def Obligations.ResetStateHoldsTheResetValues : Prop :=
  (∀ b : Board, (State.resetOn b).regs =
    { port1 := 0x00
      port2 := b.port2Reset
      psgAddrM := none
      psgAddrL := none
      decoder1 := { mode := none, reset := none }
      decoder2 := if b.secondaryPresent then some { mode := none, reset := none } else none
      irq := false
      cmd := 0
      line := { bd := false, sd := false, oh := false, ch := false } }) ∧
  State.reset = State.resetOn standardBoard ∧ State.reset.regs.port2 = 0x00 ∧ State.reset.out = []

/-- 60_exceptions.md R201: a board without the primary decoder or without a PSG is refused, and no step exists for it;
with the three, whatever its secondary decoder and its discrete lines, it is configured. -/
def Obligations.MissingCollaboratorIsRefused : Prop :=
  (∀ b : Board, b.primaryPresent = true → b.psgMPresent = true → b.psgLPresent = true →
    configure b = .ok (State.resetOn b)) ∧
  ∀ b : Board, b.primaryPresent = false ∨ b.psgMPresent = false ∨ b.psgLPresent = false →
    configure b = .error .requiredCollaboratorMissing ∧
    ∀ s : State, s.board = b → step s = .refused .requiredCollaboratorMissing

/-- 10_state.md snapshot rule with decision D28: restoring a saved snapshot on a machine of the same board sets every
field of the record to the saved one, emits nothing and changes nothing else. The snapshot is of a state whose decoder
2 registers are the board's (log 15). -/
def Obligations.SnapshotRestoresEveryField : Prop :=
  ∀ (s t : State), s.board = t.board → s.regs.decoder2.isSome = s.board.secondaryPresent →
    restoreSnapshot (saveSnapshot s) t = .next { t with regs := s.regs, out := [], result := none }

/-! ### The encoding -/

/-- Every operation's word, at every value of its operands, decodes to it (30_encoding.md section 3, the spec's own
encoding, decision D2). -/
def Obligations.DecodeOfEncodeIsIdentity : Prop :=
  ∀ i : Instr, decode (encode i) = .ok i ∧ decodeTableWord 16 (encode i).toNat = some i

/-- A word the decoder accepts is the word of the operation it gives: no two words mean the same operation
(30_encoding.md section 3, decision D2). -/
def Obligations.EncodeOfDecodeIsIdentity : Prop :=
  ∀ (w : Word) (i : Instr), decode w = .ok i → encode i = w

/-- 30_encoding.md's match and mask table (decision D2): the decoder accepts a word exactly when a row matches it, the
row is that of the operation it gives, and no word matches two rows. -/
def Obligations.DecoderAcceptsExactlyTheTable : Prop :=
  (∀ w : Word, (∃ i : Instr, decode w = .ok i) ↔ ∃ r ∈ encodingTable, w &&& r.mask = r.pattern) ∧
  (∀ (w : Word) (i : Instr), decode w = .ok i →
    i.encodingRow ∈ encodingTable ∧ w &&& i.encodingRow.mask = i.encodingRow.pattern) ∧
  ∀ (w : Word) (r q : EncodingRow), r ∈ encodingTable → q ∈ encodingTable →
    w &&& r.mask = r.pattern → w &&& q.mask = q.pattern → r = q

/-- 30_encoding.md's list of reserved words (decision D29): each group is refused under its own name. A word in two
groups is refused under the first of them in the list's order (the model's choice, log 18). -/
def Obligations.ReservedWordsAreRefusedByGroup : Prop :=
  ∀ (w : Word) (op : Nat) (off : BitVec 2) (data : Byte),
    op = (w.extractLsb' 12 4).toNat → off = w.extractLsb' 8 2 → data = w.extractLsb' 0 8 →
    (op = 0x0 ∨ op = 0xE ∨ op = 0xF → decode w = .error .op) ∧
    (1 ≤ op ∧ op ≤ 0xD ∧ w.extractLsb' 10 2 ≠ 0 → decode w = .error .bits11to10) ∧
    (1 ≤ op ∧ op ≤ 0xD ∧ w.extractLsb' 10 2 = 0 ∧ op ≠ 0x8 ∧ op ≠ 0x9 ∧ off ≠ 0 → decode w = .error .off) ∧
    (op = 0x9 ∧ w.extractLsb' 10 2 = 0 ∧ off.getLsbD 1 = true → decode w = .error .adwbOff1) ∧
    ((op = 0x3 ∨ op = 0x4 ∨ op = 0x5 ∨ op = 0xC ∨ op = 0xD) ∧ w.extractLsb' 10 2 = 0 ∧ off = 0 ∧ data ≠ 0 →
      decode w = .error .data)

/-- A few words of 95_test_vectors.md section 3 decode to the operations its programs write them for. -/
def Obligations.ProgramVectorWordsDecode : Prop :=
  decode 0x1007 = .ok (.wp1 0x07) ∧ decode 0x200D = .ok (.wp2 0x0D) ∧ decode 0x3000 = .ok .rp1 ∧
    decode 0x5000 = .ok .smp ∧ decode 0x6017 = .ok (.pbw 0x17) ∧ decode 0x835A = .ok (.adwa 3 0x5A) ∧
    decode 0x9133 = .ok (.adwb 1 0x33) ∧ decode 0xA0FF = .ok (.cmd 0xFF) ∧ decode 0xD000 = .ok .rst

/-- 30_encoding.md's trace lines (decision D30): the line that stands for an operation reads back as it. -/
def Obligations.TraceLinesReadBack : Prop :=
  ∀ i : Instr, ofTraceLine (toTraceLine i).1 (toTraceLine i).2 = some i

/-- 30_encoding.md's ignored bits (decision D24): port-B bits 7:5, port-A bits 7:4, command bits 6:0 when bit 7 is set
have no effect on the whole outcome of the operation. Neither has the whole acknowledge byte (44_command_latch.md
irqAck, decision D16, and the ACK row of 30_encoding.md R79; log 24). -/
def Obligations.IgnoredOperandBitsHaveNoEffect : Prop :=
  ∀ (x y : Byte) (s : State),
    (x.extractLsb' 0 5 = y.extractLsb' 0 5 → exec (.pbw x) s = exec (.pbw y) s) ∧
    (x.extractLsb' 0 4 = y.extractLsb' 0 4 → exec (.paw x) s = exec (.paw y) s) ∧
    (x.getLsbD 7 = true ∧ y.getLsbD 7 = true → exec (.cmd x) s = exec (.cmd y) s) ∧
    exec (.ack x) s = exec (.ack y) s

/-- 30_encoding.md's ignored bits of `port2` (decision D24): two machines that differ only in them stay so for any
number of steps, with the same events and the same returned bytes, and stop with the same refusal. -/
def Obligations.IgnoredPort2BitsAreNeverObserved : Prop :=
  ∀ (n : Nat) (s t : State), sameButIgnoredPort2Bits s t →
    (∀ s' : State, Host.Core.run Sys2Proof.core n s = .next s' →
      ∃ t' : State, Host.Core.run Sys2Proof.core n t = .next t' ∧ sameButIgnoredPort2Bits s' t') ∧
    ∀ r : Refusal, Host.Core.run Sys2Proof.core n s = .refused r → Host.Core.run Sys2Proof.core n t = .refused r

/-! ### The step, its inputs, and whole-machine rules -/

/-- A step on a transaction word that decodes runs exactly the decoded operation, on the state with that input taken
off the list (00_scope.md R9, log 11); a step on a reserved word is refused with the decoder's reason (decision
D29). -/
def Obligations.StepRunsTheDecodedOperation : Prop :=
  (∀ (w : Word) (rest : List Input) (i : Instr) (s : State),
    s.board.hasCollaborators = true → s.pending = .word w :: rest → decode w = .ok i →
    step s = exec i { s with pending := rest }) ∧
  ∀ (w : Word) (rest : List Input) (why : Reserved) (s : State),
    s.board.hasCollaborators = true → s.pending = .word w :: rest → decode w = .error why →
    step s = .refused (.reservedWord why)

/-- With no input delivered a step changes no register and emits nothing, since the core "never initiates" (the
model's choice of a step for it, log 12). -/
def Obligations.StepWithoutInputIsIdle : Prop :=
  ∀ s : State, s.board.hasCollaborators = true → s.pending = [] →
    step s = .next { s with out := [], result := none }

/-- Placing an operation's word makes the very next step run it, on any board with the required collaborators: the
variant the operation exists on is wired with it (the model's choice, log 11). -/
def Obligations.PlacedWordRunsAtTheNextStep : Prop :=
  ∀ (i : Instr) (s : State), s.board.hasCollaborators = true →
    ∃ (b : Board) (t : State), i.wellFormed b = true ∧
      step (s.withFetchWord 16 (encode i).toNat) = exec i { s with board := b } ∧ exec i { s with board := b } = .next t

/-- 20_memory.md's entry-point table with the open addresses of decision D17 (log 14): which operation a bus access
invokes, for addresses of the same space that do not collide, and a step on such an access runs it. -/
def Obligations.BusAccessesReachTheirEntryPoints : Prop :=
  (∀ (b : Board) (v : Byte), b.addresses.port1 ≠ b.addresses.port2 →
    decodeBus b ⟨.mcuPort, b.addresses.port1, some v⟩ = some (.wp1 v) ∧
    decodeBus b ⟨.mcuPort, b.addresses.port2, some v⟩ = some (.wp2 v) ∧
    decodeBus b ⟨.mcuPort, b.addresses.port1, none⟩ = some .rp1 ∧
    decodeBus b ⟨.mcuPort, b.addresses.port2, none⟩ = some .rp2) ∧
  (∀ (b : Board) (off : BitVec 2) (v : Byte), b.adpcmVariant = .a →
    decodeBus b ⟨.mcuMemory, b.addresses.adpcmBase + off.toNat, some v⟩ = some (.adwa off v)) ∧
  (∀ (b : Board) (off : BitVec 1) (v : Byte), b.adpcmVariant = .b →
    decodeBus b ⟨.mcuMemory, b.addresses.adpcmBase + off.toNat, some v⟩ = some (.adwb off v)) ∧
  (∀ (b : Board) (v : Byte),
    b.addresses.ack < b.addresses.adpcmBase ∨ b.addresses.adpcmBase + 4 ≤ b.addresses.ack →
    decodeBus b ⟨.mcuMemory, b.addresses.ack, some v⟩ = some (.ack v)) ∧
  (∀ (b : Board) (v : Byte),
    decodeBus b ⟨.mcuInput, b.addresses.cmdRead, none⟩ = some .rcl ∧
    decodeBus b ⟨.mainBus, b.addresses.cmdWrite, some v⟩ = some (.cmd v)) ∧
  ∀ (x : BusAccess) (rest : List Input) (i : Instr) (s : State),
    s.board.hasCollaborators = true → s.pending = .bus x :: rest → decodeBus s.board x = some i →
    step s = exec i { s with pending := rest }

/-- 00_scope.md R10: every operation completes on every operand and in every state, an ADPCM write on every board of
its variant; and an operation that does not exist on the board does not. -/
def Obligations.EveryOperationIsTotal : Prop :=
  ∀ (i : Instr) (s : State), i.wellFormed s.board = true ↔ ∃ t : State, exec i s = .next t

/-- 00_scope.md R11: without the secondary, an operation emits what it would emit with it, less the events addressed
to decoder 2, and leaves the same record but for decoder 2's registers, which it does not drive. -/
def Obligations.AbsentSecondaryIsANoOp : Prop :=
  ∀ (i : Instr) (s t : State),
    exec i { s with board := { s.board with secondaryPresent := true } } = .next t →
    ∃ u : State, exec i { s with board := { s.board with secondaryPresent := false } } = .next u ∧
      u.out = t.out.filter (fun e => !addressesSecondary e) ∧ u.result = t.result ∧
      u.regs = { t.regs with decoder2 := u.regs.decoder2 } ∧
      (i ≠ .rst → u.regs.decoder2 = s.regs.decoder2)

/-- 20_memory.md's writers table (R60's list, in part): each register is changed only by an operation of its one
writer, the acknowledge writer being the microcontroller (90_conflicts.md C3), reset apart. -/
def Obligations.EachRegisterHasOneWriter : Prop :=
  ∀ (g : Agent) (i : Instr) (s t : State),
    mayInvoke s.board g i = true → g ≠ .host → exec i s = .next t →
    (t.regs.port1 ≠ s.regs.port1 → g = .microcontroller) ∧
    (t.regs.port2 ≠ s.regs.port2 → g = .microcontroller) ∧
    (∀ p : Psg, t.regs.psgAddr p ≠ s.regs.psgAddr p → g = .microcontroller) ∧
    (t.regs.cmd ≠ s.regs.cmd → g = .mainCpu) ∧
    (s.regs.irq = false → t.regs.irq = true → g = .mainCpu) ∧
    (s.regs.irq = true → t.regs.irq = false → g = .microcontroller) ∧
    (t.regs.decoder1 ≠ s.regs.decoder1 ∨ t.regs.decoder2 ≠ s.regs.decoder2 → g = .psg s.board.portBPsg) ∧
    (t.regs.line ≠ s.regs.line → g = .psg s.board.portAPsg)

/-- 60_exceptions.md's read-back rule (R213, in part): the byte an operation returns depends on no register but
`port2` and the select latches (through readPort1) and `cmd` (through readCommand). -/
def Obligations.OnlyThreeRegistersReadBack : Prop :=
  ∀ (i : Instr) (s t u w : State),
    s.board = t.board → s.opIndex = t.opIndex → s.regs.port2 = t.regs.port2 →
    s.regs.psgAddrM = t.regs.psgAddrM → s.regs.psgAddrL = t.regs.psgAddrL → s.regs.cmd = t.regs.cmd →
    exec i s = .next u → exec i t = .next w → u.result = w.result

/-- 20_memory.md's idempotency table (R56, in part): repeating an operation leaves the record as it is; a repeated
writePort2 emits nothing, and a repeated port or latch write emits its events again. -/
def Obligations.RepeatedOperationLeavesTheRecord : Prop :=
  ∀ (i : Instr) (s t u : State), exec i s = .next t → exec i t = .next u →
    u.regs = t.regs ∧
    (∀ v : Byte, i = .wp2 v → u.out = []) ∧
    (∀ v : Byte, i = .pbw v ∨ i = .paw v ∨ i = .cmd v ∨ i = .ack v → u.out = t.out)

/-- RP1, RP2, SMP, ADWA, ADWB and RCL write no state (40_control_bus_latch.md readPort1 and readPort2, 41_decoder_sync.md
sampleConsumed, 43_adpcm_feed.md, 44_command_latch.md readCommand): wherever they fall in a run, the record the run
leaves is that of the run without them. For RCL this is the spec's decision D14 (log 20), and that SMP may fall anywhere
is its decision D35. -/
def Obligations.OnlyWritingOperationsShapeTheRecord : Prop :=
  ∀ (is : List Instr) (s u : State) (evs : List Event), runOps is s = some (u, evs) →
    ∃ (w : State) (evs' : List Event), runOps (is.filter writesState) s = some (w, evs') ∧ w.regs = u.regs

/-- The events are the whole of what the collaborators learn (10_state.md R32): after any run without reset, the
select latches, the decoders' drive registers, the interrupt line and the connected discrete lines are what the
emitted events say of them. -/
def Obligations.EventsReportTheDrivenRegisters : Prop :=
  ∀ (is : List Instr) (s u : State) (evs : List Event),
    runOps is s = some (u, evs) → Instr.rst ∉ is →
    sameDriven s.board u.regs (evs.foldl observe s.regs)

/-- 20_memory.md R58 and R60 (in part): runs of operations compose, with the events of the first before those of the
second (R59); and where the first is of one agent and the second of another, the other order completes too and leaves
the same record, since each register "has exactly one writer". The host's reset is apart, and so is the request latch,
which the main CPU sets and the microcontroller clears: the runs do not hold both an acknowledge and a bit-7 command. -/
def Obligations.RunsCompose : Prop :=
  ∀ (xs ys : List Instr) (s t u : State) (e₁ e₂ : List Event),
    runOps xs s = some (t, e₁) → runOps ys t = some (u, e₂) →
    runOps (xs ++ ys) s = some (u, e₁ ++ e₂) ∧
    ∀ g h : Agent, g ≠ h → g ≠ .host → h ≠ .host →
      (∀ x ∈ xs, mayInvoke s.board g x = true) → (∀ y ∈ ys, mayInvoke s.board h y = true) →
      (∀ v c : Byte, Instr.ack v ∈ xs ++ ys → Instr.cmd c ∈ xs ++ ys → c.getLsbD 7 = false) →
      ∃ (w : State) (evs : List Event), runOps (ys ++ xs) s = some (w, evs) ∧ w.regs = u.regs

/-- Delivering the words of a sequence of operations, one a step, is the run of those operations: the machine of words
and inputs refines the machine of operations (20_memory.md R58, log 11). -/
def Obligations.SteppingWordsRunsTheOperations : Prop :=
  ∀ (is : List Instr) (rest : List Input) (s u : State) (evs : List Event),
    s.board.hasCollaborators = true → runOps is s = some (u, evs) →
    Host.Core.run Sys2Proof.core is.length
        { s with pending := is.map (fun i => Input.word (encode i)) ++ rest } =
      .next { u with pending := rest }

/-- The parameters never change during a run (00_scope.md R5 and 60_exceptions.md's host table, in part): any number
of steps leaves the board as it was. -/
def Obligations.BoardNeverChanges : Prop :=
  ∀ (n : Nat) (s t : State), Host.Core.run Sys2Proof.core n s = .next t → t.board = s.board

/-- The decoders' drive registers stay consistent with one another and with the board, whatever the input: decoder 2's
registers exist exactly when it is present, its mode is `SEC_MODE` of decoder 1's, and mode and reset are driven
together (10_state.md R20, R25 and 42_psg_port_handlers.md, portBWrite). -/
def Obligations.DecoderDriveStaysConsistent : Prop :=
  ∀ s t : State, s.consistent → step s = .next t → t.consistent

/-- The invariant holds right after reset, on every board. -/
def Obligations.ResetStateIsConsistent : Prop :=
  (∀ b : Board, (State.resetOn b).consistent) ∧ State.reset.consistent
end

