-- ==== Sys2Proof/Laws/Encoding.lean ====
section
/-! SUPPORT. The transaction word bit by bit and field by field (30_encoding.md R78): what packing and taking apart do
to one another. -/

namespace Sys2Proof.Laws

/-- The bits of a packed word, field by field (30_encoding.md R78). -/
theorem getLsbD_packWord (op : BitVec 4) (off : BitVec 2) (data : Byte) (i : Nat) :
    (packWord op off data).getLsbD i =
      if i < 8 then data.getLsbD i
      else if i < 10 then off.getLsbD (i - 8)
      else if i < 12 then false
      else op.getLsbD (i - 12) := by
  have bits : (((op ++ 0#2) ++ off) ++ data).getLsbD i = _ := BitVec.getLsbD_append
  rw [show (packWord op off data).getLsbD i = _ from bits, BitVec.getLsbD_append, BitVec.getLsbD_append]
  by_cases h : i < 8
  · simp [h]
  · by_cases h' : i < 10
    · simp [h, h', show i - 8 < 2 by omega]
    · by_cases h'' : i < 12
      · simp [h, h', h'', show ¬ i - 8 < 2 by omega, show i - 8 - 2 < 2 by omega]
      · simp [h, h', h'', show ¬ i - 8 < 2 by omega, show ¬ i - 8 - 2 < 2 by omega,
          show i - 8 - 2 - 2 = i - 12 by omega]

/-- A packed word whose data is masked off: only OP and OFF count. -/
theorem packWord_and_ff00 (op : BitVec 4) (off : BitVec 2) (data : Byte) :
    packWord op off data &&& 0xFF00 = packWord op off 0 := by
  apply BitVec.eq_of_getLsbD_eq
  intro i hi
  simp only [BitVec.getLsbD_and, getLsbD_packWord]
  interval_cases i <;> simp

/-- A packed word whose data and offset are masked off: only OP counts. -/
theorem packWord_and_fc00 (op : BitVec 4) (off : BitVec 2) (data : Byte) :
    packWord op off data &&& 0xFC00 = packWord op 0 0 := by
  apply BitVec.eq_of_getLsbD_eq
  intro i hi
  simp only [BitVec.getLsbD_and, getLsbD_packWord]
  interval_cases i <;> simp

/-- A packed word of a 1-bit offset, with the data and that bit masked off: only OP counts. -/
theorem packWord_and_fe00 (op : BitVec 4) (off : BitVec 1) (data : Byte) :
    packWord op (off.zeroExtend 2) data &&& 0xFE00 = packWord op 0 0 := by
  apply BitVec.eq_of_getLsbD_eq
  intro i hi
  simp only [BitVec.getLsbD_and, getLsbD_packWord]
  interval_cases i <;> simp

/-- OP of a packed word. -/
@[simp] theorem opField_packWord (op : BitVec 4) (off : BitVec 2) (data : Byte) :
    opField (packWord op off data) = op := by
  apply BitVec.eq_of_getLsbD_eq
  intro i hi
  simp only [opField, BitVec.getLsbD_extractLsb', getLsbD_packWord]
  interval_cases i <;> simp

/-- Bits 11:10 of a packed word are 0. -/
@[simp] theorem resField_packWord (op : BitVec 4) (off : BitVec 2) (data : Byte) :
    resField (packWord op off data) = 0 := by
  apply BitVec.eq_of_getLsbD_eq
  intro i hi
  simp only [resField, BitVec.getLsbD_extractLsb', getLsbD_packWord]
  interval_cases i <;> simp

/-- OFF of a packed word. -/
@[simp] theorem offField_packWord (op : BitVec 4) (off : BitVec 2) (data : Byte) :
    offField (packWord op off data) = off := by
  apply BitVec.eq_of_getLsbD_eq
  intro i hi
  simp only [offField, BitVec.getLsbD_extractLsb', getLsbD_packWord]
  interval_cases i <;> simp

/-- DATA of a packed word. -/
@[simp] theorem dataField_packWord (op : BitVec 4) (off : BitVec 2) (data : Byte) :
    dataField (packWord op off data) = data := by
  apply BitVec.eq_of_getLsbD_eq
  intro i hi
  simp only [dataField, BitVec.getLsbD_extractLsb', getLsbD_packWord]
  simp [hi]

/-- A word whose bits 11:10 are 0 is its own fields packed again. -/
theorem packWord_fields {w : Word} (h : resField w = 0) : packWord (opField w) (offField w) (dataField w) = w := by
  have h10 : w.getLsbD 10 = false := by simpa [resField] using congrArg (fun x => x.getLsbD 0) h
  have h11 : w.getLsbD 11 = false := by simpa [resField] using congrArg (fun x => x.getLsbD 1) h
  apply BitVec.eq_of_getLsbD_eq
  intro i hi
  simp only [getLsbD_packWord, opField, offField, dataField, BitVec.getLsbD_extractLsb']
  interval_cases i <;> simp_all

end Sys2Proof.Laws
end

