-- ==== Sys2Proof/Laws/State.lean ====
section
/-! SUPPORT. One lemma for each field of each update of State and of the record, so that no later proof unfolds an
update. -/

namespace Sys2Proof.Machine

section After
variable (s : State) (r : Registers) (evs : List Event) (res : Option Byte)

@[simp] theorem State.after_regs : (s.after r evs res).regs = r := rfl
@[simp] theorem State.after_board : (s.after r evs res).board = s.board := rfl
@[simp] theorem State.after_pending : (s.after r evs res).pending = s.pending := rfl
@[simp] theorem State.after_out : (s.after r evs res).out = evs := rfl
@[simp] theorem State.after_result : (s.after r evs res).result = res := rfl
@[simp] theorem State.after_opIndex : (s.after r evs res).opIndex = s.opIndex + 1 := rfl

end After

section Idle
variable (s : State)

@[simp] theorem idle_regs : (idle s).regs = s.regs := rfl
@[simp] theorem idle_board : (idle s).board = s.board := rfl
@[simp] theorem idle_pending : (idle s).pending = s.pending := rfl
@[simp] theorem idle_out : (idle s).out = [] := rfl
@[simp] theorem idle_result : (idle s).result = none := rfl
@[simp] theorem idle_opIndex : (idle s).opIndex = s.opIndex := rfl

end Idle

section PlaceWord
variable (w : Word) (s : State)

@[simp] theorem placeWord_regs : (placeWord w s).regs = s.regs := rfl
@[simp] theorem placeWord_board : (placeWord w s).board = boardForWord w s.board := rfl
@[simp] theorem placeWord_pending : (placeWord w s).pending = .word w :: s.pending := rfl
@[simp] theorem placeWord_out : (placeWord w s).out = s.out := rfl
@[simp] theorem placeWord_result : (placeWord w s).result = s.result := rfl
@[simp] theorem placeWord_opIndex : (placeWord w s).opIndex = s.opIndex := rfl

end PlaceWord

section SetPsgAddr
variable (r : Registers) (t : Psg) (a : Option Byte)

@[simp] theorem Registers.setPsgAddr_port1 : (r.setPsgAddr t a).port1 = r.port1 := by cases t <;> rfl
@[simp] theorem Registers.setPsgAddr_port2 : (r.setPsgAddr t a).port2 = r.port2 := by cases t <;> rfl
@[simp] theorem Registers.setPsgAddr_decoder1 : (r.setPsgAddr t a).decoder1 = r.decoder1 := by cases t <;> rfl
@[simp] theorem Registers.setPsgAddr_decoder2 : (r.setPsgAddr t a).decoder2 = r.decoder2 := by cases t <;> rfl
@[simp] theorem Registers.setPsgAddr_irq : (r.setPsgAddr t a).irq = r.irq := by cases t <;> rfl
@[simp] theorem Registers.setPsgAddr_cmd : (r.setPsgAddr t a).cmd = r.cmd := by cases t <;> rfl
@[simp] theorem Registers.setPsgAddr_line : (r.setPsgAddr t a).line = r.line := by cases t <;> rfl

/-- A select reads back on its own PSG and leaves the other's (10_state.md R24). -/
@[simp] theorem Registers.psgAddr_setPsgAddr (u : Psg) :
    (r.setPsgAddr t a).psgAddr u = if u = t then a else r.psgAddr u := by
  cases t <;> cases u <;> rfl

@[simp] theorem Registers.setPsgAddr_m : r.setPsgAddr .m a = { r with psgAddrM := a } := rfl
@[simp] theorem Registers.setPsgAddr_l : r.setPsgAddr .l a = { r with psgAddrL := a } := rfl
@[simp] theorem Registers.psgAddr_m : r.psgAddr .m = r.psgAddrM := rfl
@[simp] theorem Registers.psgAddr_l : r.psgAddr .l = r.psgAddrL := rfl

end SetPsgAddr

section DriveDecoders
variable (b : Board) (r : Registers) (v : Byte)

@[simp] theorem driveDecoders_port1 : (driveDecoders b r v).port1 = r.port1 := rfl
@[simp] theorem driveDecoders_port2 : (driveDecoders b r v).port2 = r.port2 := rfl
@[simp] theorem driveDecoders_psgAddrM : (driveDecoders b r v).psgAddrM = r.psgAddrM := rfl
@[simp] theorem driveDecoders_psgAddrL : (driveDecoders b r v).psgAddrL = r.psgAddrL := rfl
@[simp] theorem driveDecoders_decoder1 : (driveDecoders b r v).decoder1 = primaryDrive v := rfl
@[simp] theorem driveDecoders_decoder2 :
    (driveDecoders b r v).decoder2 = if b.secondaryPresent then some (secondaryDrive b v) else r.decoder2 := rfl
@[simp] theorem driveDecoders_irq : (driveDecoders b r v).irq = r.irq := rfl
@[simp] theorem driveDecoders_cmd : (driveDecoders b r v).cmd = r.cmd := rfl
@[simp] theorem driveDecoders_line : (driveDecoders b r v).line = r.line := rfl

end DriveDecoders

section DriveIrq
variable (r : Registers) (l : Bool)

@[simp] theorem driveIrq_fst : (driveIrq r l).1 = { r with irq := l } := rfl
@[simp] theorem driveIrq_snd : (driveIrq r l).2 = [.irq l] := rfl

end DriveIrq

section LinesOf
variable (a : Byte)

/-- Line `i` is set to its bit of the port-A byte (42_psg_port_handlers.md R144). -/
@[simp] theorem linesOf_get (i : Line) : (linesOf a).get i = lineBit a i := by cases i <;> rfl

end LinesOf

section Reset
variable (b : Board)

@[simp] theorem State.resetOn_regs : (State.resetOn b).regs = resetRegisters b := rfl
@[simp] theorem State.resetOn_board : (State.resetOn b).board = b := rfl
@[simp] theorem State.resetOn_pending : (State.resetOn b).pending = [] := rfl
@[simp] theorem State.resetOn_out : (State.resetOn b).out = [] := rfl
@[simp] theorem State.resetOn_result : (State.resetOn b).result = none := rfl
@[simp] theorem State.resetOn_opIndex : (State.resetOn b).opIndex = 0 := rfl
@[simp] theorem State.reset_eq : State.reset = State.resetOn standardBoard := rfl
@[simp] theorem standardBoard_hasCollaborators : standardBoard.hasCollaborators = true := rfl

end Reset

end Sys2Proof.Machine
end

