-- ==== Sys2Proof/Laws/Ops.lean ====
section
/-! SUPPORT. One lemma for each shared operation that says what it can do, for the proofs to cite in place of
unfolding it. -/

namespace Sys2Proof

/-- The secondary's mode has the slave setting in the sample-rate sub-field, whatever the field. -/
theorem Board.secMode_and_rate (b : Board) (f : Mode) :
    b.secMode f &&& b.secRateField.val = b.secSlaveSetting &&& b.secRateField.val := by
  have h : ∀ x r s : Mode, ((x &&& ~~~r) ||| (s &&& r)) &&& r = s &&& r := by decide
  exact h _ _ _

/-- Outside the sub-field it is the table's entry at the rest of the field. -/
theorem Board.secMode_and_not_rate (b : Board) (f : Mode) :
    b.secMode f &&& ~~~b.secRateField.val =
      b.secModeTable[(f &&& ~~~b.secRateField.val).toNat]'(BitVec.isLt _) &&& ~~~b.secRateField.val := by
  have h : ∀ x r s : Mode, ((x &&& ~~~r) ||| (s &&& r)) &&& ~~~r = x &&& ~~~r := by decide
  exact h _ _ _

/-- The secondary's mode depends on the field only outside the sample-rate sub-field. -/
theorem Board.secMode_congr {b : Board} {f h : Mode}
    (e : f &&& ~~~b.secRateField.val = h &&& ~~~b.secRateField.val) : b.secMode f = b.secMode h := by
  unfold Board.secMode
  simp only [e]

end Sys2Proof

namespace Sys2Proof.Machine

/-- A table entry is the function's value. -/
theorem secModeTableOf_get (g : Mode → Mode) (f : Mode) : (secModeTableOf g)[f.toNat]'f.isLt = g f := by
  match f with
  | 0 | 1 | 2 | 3 | 4 | 5 | 6 | 7 => rfl
/-- What completing an operation answers: always a next state, and this one. -/
theorem finish_eq_next {s t : State} {r : Registers} {evs : List Event} {res : Option Byte} :
    finish s r evs res = .next t ↔ t = s.after r evs res := by
  unfold finish
  constructor
  · intro h
    injection h with h
    exact h.symm
  · rintro rfl
    rfl

/-- The free order of two targets is one of the two orders. -/
theorem inFreeOrder_cases {α : Type} (n : Nat) (l : List α) : inFreeOrder n l = l ∨ inFreeOrder n l = l.reverse := by
  match l with
  | [] => exact .inl rfl
  | [_] => exact .inl rfl
  | [a, b] =>
    cases h : Config.freeOrder n
    · exact .inl (by simp [inFreeOrder, h])
    · exact .inr (by simp [inFreeOrder, h])
  | _ :: _ :: _ :: _ => exact .inl rfl

/-- Whatever the free order, the same targets act, each as often as listed. -/
theorem inFreeOrder_perm {α : Type} (n : Nat) (l : List α) : (inFreeOrder n l).Perm l := by
  rcases inFreeOrder_cases n l with h | h <;> rw [h]
  exact l.reverse_perm

/-- No target has one order only. -/
@[simp] theorem inFreeOrder_nil {α : Type} (n : Nat) : inFreeOrder n ([] : List α) = [] := rfl

/-- One target has one order only. -/
@[simp] theorem inFreeOrder_single {α : Type} (n : Nat) (a : α) : inFreeOrder n [a] = [a] := rfl

/-- An access in the register-select phase (40_control_bus_latch.md R104). -/
theorem accessPsg_select {d : Byte} (h : ph d = true) (r : Registers) (t : Psg) :
    accessPsg d r t = (r.setPsgAddr t (some r.port1), [.psgAddr t r.port1]) := by
  simp [accessPsg, h]

/-- An access in the data phase (40_control_bus_latch.md R105). -/
theorem accessPsg_data {d : Byte} (h : ph d = false) (r : Registers) (t : Psg) :
    accessPsg d r t = (r, [.psgData t (r.psgAddr t) r.port1]) := by
  simp [accessPsg, h]

/-- An access changes no register but the select latches. -/
theorem accessPsg_frame (d : Byte) (r : Registers) (t : Psg) :
    ∃ m l : Option Byte, (accessPsg d r t).1 = { r with psgAddrM := m, psgAddrL := l } := by
  cases hp : ph d
  · exact ⟨r.psgAddrM, r.psgAddrL, by rw [accessPsg_data hp]⟩
  · cases t
    · exact ⟨some r.port1, r.psgAddrL, by rw [accessPsg_select hp]; rfl⟩
    · exact ⟨r.psgAddrM, some r.port1, by rw [accessPsg_select hp]; rfl⟩

/-- Register selects of the listed PSGs: each listed latch takes `port1`, the other keeps its byte, and one event is
emitted for each listed PSG in that order (40_control_bus_latch.md R101, R104). -/
theorem accessPsgs_select {d : Byte} (h : ph d = true) (ts : List Psg) (r : Registers) :
    accessPsgs d r ts =
      ({ r with
          psgAddrM := if .m ∈ ts then some r.port1 else r.psgAddrM
          psgAddrL := if .l ∈ ts then some r.port1 else r.psgAddrL },
        ts.map fun t => .psgAddr t r.port1) := by
  induction ts generalizing r with
  | nil => rfl
  | cons t ts ih =>
    rw [accessPsgs, accessPsg_select h]
    simp only [ih]
    cases t <;> simp [Registers.setPsgAddr]

/-- Data writes of the listed PSGs: the record is unchanged and one event is emitted for each listed PSG in that order
(40_control_bus_latch.md R101, R105). -/
theorem accessPsgs_data {d : Byte} (h : ph d = false) (ts : List Psg) (r : Registers) :
    accessPsgs d r ts = (r, ts.map fun t => .psgData t (r.psgAddr t) r.port1) := by
  induction ts with
  | nil => rfl
  | cons t ts ih => rw [accessPsgs, accessPsg_data h]; simp [ih]

/-- Without an edge a write of `port2` commits nothing (10_state.md R23). -/
theorem commitAccess_noEdge {b : Board} {n : Nat} {r : Registers} {v : Byte} (h : fall r.port2 v = false) :
    commitAccess b n r v = (r, []) := by
  simp [commitAccess, h]

/-- On an edge the selected PSGs are accessed, in one of the orders (40_control_bus_latch.md R101, R103). -/
theorem commitAccess_edge {b : Board} {n : Nat} {r : Registers} {v : Byte} (h : fall r.port2 v = true) :
    commitAccess b n r v =
      accessPsgs (decodeSource b r.port2 v) r (inFreeOrder n (selectedPsgs b (decodeSource b r.port2 v))) := by
  simp [commitAccess, h]

/-- A PSG is accessed exactly when its select bit is set (40_control_bus_latch.md R101). -/
@[simp] theorem mem_selectedPsgs {b : Board} {d : Byte} {t : Psg} : t ∈ selectedPsgs b d ↔ sel b d t = true := by
  cases t <;> cases hm : sel b d .m <;> cases hl : sel b d .l <;> simp [selectedPsgs, hm, hl]

/-- The free order does not change which PSGs are accessed. -/
@[simp] theorem mem_inFreeOrder {α : Type} {n : Nat} {l : List α} {a : α} : a ∈ inFreeOrder n l ↔ a ∈ l :=
  (inFreeOrder_perm n l).mem_iff

/-- What a write of `port2` does to the record before `port2` itself is stored: only select latches change. -/
theorem commitAccess_regs (b : Board) (n : Nat) (r : Registers) (v : Byte) :
    (commitAccess b n r v).1 =
      { r with
        psgAddrM :=
          if fall r.port2 v = true ∧ ph (decodeSource b r.port2 v) = true ∧
            sel b (decodeSource b r.port2 v) .m = true then some r.port1 else r.psgAddrM
        psgAddrL :=
          if fall r.port2 v = true ∧ ph (decodeSource b r.port2 v) = true ∧
            sel b (decodeSource b r.port2 v) .l = true then some r.port1 else r.psgAddrL } := by
  cases hf : fall r.port2 v
  · rw [commitAccess_noEdge hf]; simp
  · rw [commitAccess_edge hf]
    cases hp : ph (decodeSource b r.port2 v)
    · rw [accessPsgs_data hp]; simp
    · rw [accessPsgs_select hp]; simp

/-- What an event of an edge is, for one PSG. -/
def accessEvent (d : Byte) (r : Registers) (t : Psg) : Event :=
  if ph d then .psgAddr t r.port1 else .psgData t (r.psgAddr t) r.port1

/-- The events of a write of `port2`: none without an edge, one for each selected PSG with one, in one of the orders
(40_control_bus_latch.md R101, R103). -/
theorem commitAccess_events (b : Board) (n : Nat) (r : Registers) (v : Byte) :
    (commitAccess b n r v).2 =
      if fall r.port2 v then
        (inFreeOrder n (selectedPsgs b (decodeSource b r.port2 v))).map (accessEvent (decodeSource b r.port2 v) r)
      else [] := by
  cases hf : fall r.port2 v
  · rw [commitAccess_noEdge hf]; simp
  · rw [commitAccess_edge hf]
    cases hp : ph (decodeSource b r.port2 v)
    · rw [accessPsgs_data hp]; simp [accessEvent, hp]
    · rw [accessPsgs_select hp]; simp [accessEvent, hp]

/-- What a read of port 1 can return and emit: a free byte and no event; a PSG's byte and the event that records it; or
0xFF and no event (40_control_bus_latch.md R106). -/
theorem readPort1Value_cases (b : Board) (n : Nat) (r : Registers) :
    (readIsFree b r.port2 = true ∧ readPort1Value b n r = (Config.bothSelectedRead n, [])) ∨
      (readIsFree b r.port2 = false ∧ ∃ t, readTarget b r.port2 = some t ∧
        readPort1Value b n r =
          (Config.psgRead t (r.psgAddr t) n, [.psgRead t (r.psgAddr t) (Config.psgRead t (r.psgAddr t) n)])) ∨
      (readIsFree b r.port2 = false ∧ readTarget b r.port2 = none ∧ readPort1Value b n r = (0xFF, [])) := by
  cases hf : readIsFree b r.port2
  · cases ht : readTarget b r.port2 with
    | none => exact .inr (.inr ⟨rfl, rfl, by simp [readPort1Value, hf, ht]⟩)
    | some t => exact .inr (.inl ⟨rfl, t, rfl, by simp [readPort1Value, hf, ht, readPsg]⟩)
  · exact .inl ⟨rfl, by simp [readPort1Value, hf]⟩

/-- A byte fed to a decoder is one event to a decoder that is present, nothing to an absent one (43_adpcm_feed.md
R162). -/
theorem mem_feedDecoders {b : Board} {v : Byte} {ds : List Decoder} {e : Event} :
    e ∈ feedDecoders b v ds ↔ ∃ d ∈ ds, decoderPresent b d = true ∧ e = .decData d v := by
  simp only [feedDecoders, feedDecoder, List.mem_flatMap]
  constructor
  · rintro ⟨d, hd, he⟩
    cases hp : decoderPresent b d <;> simp [hp] at he
    exact ⟨d, hd, hp, he⟩
  · rintro ⟨d, hd, hp, rfl⟩
    exact ⟨d, hd, by simp [hp]⟩

/-- One word of the environment, on a word that decodes: the operation runs (30_encoding.md R79). -/
theorem deliverWord_of_decode {w : Word} {i : Instr} (h : decode w = .ok i) (s : State) :
    deliverWord w s = exec i s := by
  simp [deliverWord, h]

/-- One word of the environment, on a reserved word: refused by name (30_encoding.md R80). -/
theorem deliverWord_of_reserved {w : Word} {why : Reserved} (h : decode w = .error why) (s : State) :
    deliverWord w s = .refused (.reservedWord why) := by
  simp [deliverWord, h]

/-- What a restore can do: set the whole record and emit nothing, or refuse (10_state.md R35). -/
theorem restoreSnapshot_cases (r : Registers) (s : State) :
    (snapshotComplete s.board r = true ∧
        restoreSnapshot r s = .next { s with regs := r, out := [], result := none }) ∨
      (snapshotComplete s.board r = false ∧ restoreSnapshot r s = .refused .incompleteSnapshot) := by
  cases h : snapshotComplete s.board r
  · exact .inr ⟨rfl, by simp [restoreSnapshot, h]⟩
  · exact .inl ⟨rfl, by simp [restoreSnapshot, h]⟩

/-- What a step that answers a next state did: it was idle, or it ran the operation a word or a bus access stands for,
or it restored a snapshot. -/
theorem step_cases {s t : State} (h : step s = .next t) :
    s.board.hasCollaborators = true ∧
      ((s.pending = [] ∧ t = idle s) ∨
        (∃ (x : Input) (rest : List Input) (i : Instr), s.pending = x :: rest ∧
          exec i { s with pending := rest } = .next t) ∨
        ∃ (r : Registers) (rest : List Input), s.pending = .restore r :: rest ∧
          t = { s with regs := r, pending := rest, out := [], result := none }) := by
  unfold step at h
  split at h
  case isFalse => cases h
  case isTrue hb =>
    refine ⟨hb, ?_⟩
    unfold takeInput at h
    split at h
    next hp => injection h with h; exact .inl ⟨hp, h.symm⟩
    next x rest hp =>
      right
      cases x with
      | word w =>
        left
        cases hd : decode w with
        | ok i => exact ⟨_, rest, i, hp, by simpa [deliver, deliverWord_of_decode hd] using h⟩
        | error why => simp [deliver, deliverWord_of_reserved hd] at h
      | bus a =>
        left
        simp only [deliver, deliverBus] at h
        split at h
        next i hi => exact ⟨_, rest, i, hp, h⟩
        next => cases h
      | restore r =>
        right
        rcases restoreSnapshot_cases r { s with pending := rest } with ⟨_, hr⟩ | ⟨_, hr⟩
        · simp only [deliver] at h
          rw [hr] at h
          injection h with h
          exact ⟨r, rest, hp, h.symm⟩
        · simp only [deliver] at h
          rw [hr] at h
          cases h

end Sys2Proof.Machine
end

