-- ==== Sys2Proof/Laws/Exec.lean ====
section
/-! SUPPORT. What each operation can do, once: the state an operation leaves, when it answers a next state. Every
invariant of the machine follows from these. -/

namespace Sys2Proof.Machine

theorem exec_wp1 (v : Byte) (s : State) : exec (.wp1 v) s = .next (s.after { s.regs with port1 := v } [] none) := rfl

theorem exec_wp2 (v : Byte) (s : State) :
    exec (.wp2 v) s = .next (s.after { (commitAccess s.board s.opIndex s.regs v).1 with port2 := v }
      (commitAccess s.board s.opIndex s.regs v).2 none) := rfl

theorem exec_rp1 (s : State) :
    exec .rp1 s = .next (s.after s.regs (readPort1Value s.board s.opIndex s.regs).2
      (some (readPort1Value s.board s.opIndex s.regs).1)) := rfl

theorem exec_rp2 (s : State) :
    exec .rp2 s = .next (s.after s.regs [.logPort2Read] (some s.board.port2ReadValue)) := rfl

theorem exec_smp (s : State) :
    exec .smp s = .next (s.after s.regs (nmiPulse ++ secondaryClockPulse s.board) none) := rfl

theorem exec_pbw (b : Byte) (s : State) :
    exec (.pbw b) s = .next (s.after (driveDecoders s.board s.regs b) (driveDecodersEvents s.board b) none) := rfl

theorem exec_paw (a : Byte) (s : State) :
    exec (.paw a) s = .next (s.after { s.regs with line := linesOf a } (lineEvents s.board a) none) := rfl

theorem exec_adwa_wired {s : State} (h : s.board.adpcmVariant = .a) (off : BitVec 2) (v : Byte) :
    exec (.adwa off v) s =
      .next (s.after s.regs (feedDecoders s.board v (inFreeOrder s.opIndex (targetsA off))) none) := by
  simp [exec, execAdwa, h, finish]

theorem exec_adwa_refused {s : State} (h : s.board.adpcmVariant = .b) (off : BitVec 2) (v : Byte) :
    exec (.adwa off v) s = .refused .adpcmVariantNotWired := by
  simp [exec, execAdwa, h]

theorem exec_adwb_wired {s : State} (h : s.board.adpcmVariant = .b) (off : BitVec 1) (v : Byte) :
    exec (.adwb off v) s = .next (s.after s.regs (feedDecoders s.board v [targetB off]) none) := by
  simp [exec, execAdwb, h, finish]

theorem exec_adwb_refused {s : State} (h : s.board.adpcmVariant = .a) (off : BitVec 1) (v : Byte) :
    exec (.adwb off v) s = .refused .adpcmVariantNotWired := by
  simp [exec, execAdwb, h]

theorem exec_cmd_request {c : Byte} (h : cmdInt c = true) (s : State) :
    exec (.cmd c) s = .next (s.after { s.regs with irq := true } [.irq true] none) := by
  simp [exec, execCmd, h, finish]

theorem exec_cmd_store {c : Byte} (h : cmdInt c = false) (s : State) :
    exec (.cmd c) s = .next (s.after { s.regs with cmd := cmdVal c } [] none) := by
  simp [exec, execCmd, h, finish]

theorem exec_ack (v : Byte) (s : State) :
    exec (.ack v) s = .next (s.after { s.regs with irq := false } [.irq false] none) := rfl

theorem exec_rcl (s : State) : exec .rcl s = .next (s.after s.regs [] (some (zext8 s.regs.cmd))) := rfl

theorem exec_rst (s : State) : exec .rst s = .next (s.after (resetRegisters s.board) [] none) := rfl

/-- Everything an operation can do, once: when it answers a next state, that state is one of these, with its operand
and the condition it runs under. A property of an operation and its next state is proved by these cases. -/
theorem exec_cases {i : Instr} {s t : State} (h : exec i s = .next t) {P : Instr → State → Prop}
    (wp1 : ∀ v, P (.wp1 v) (s.after { s.regs with port1 := v } [] none))
    (wp2 : ∀ v, P (.wp2 v) (s.after { (commitAccess s.board s.opIndex s.regs v).1 with port2 := v }
      (commitAccess s.board s.opIndex s.regs v).2 none))
    (rp1 : P .rp1 (s.after s.regs (readPort1Value s.board s.opIndex s.regs).2
      (some (readPort1Value s.board s.opIndex s.regs).1)))
    (rp2 : P .rp2 (s.after s.regs [.logPort2Read] (some s.board.port2ReadValue)))
    (smp : P .smp (s.after s.regs (nmiPulse ++ secondaryClockPulse s.board) none))
    (pbw : ∀ b, P (.pbw b) (s.after (driveDecoders s.board s.regs b) (driveDecodersEvents s.board b) none))
    (paw : ∀ a, P (.paw a) (s.after { s.regs with line := linesOf a } (lineEvents s.board a) none))
    (adwa : ∀ off v, s.board.adpcmVariant = .a →
      P (.adwa off v) (s.after s.regs (feedDecoders s.board v (inFreeOrder s.opIndex (targetsA off))) none))
    (adwb : ∀ off v, s.board.adpcmVariant = .b →
      P (.adwb off v) (s.after s.regs (feedDecoders s.board v [targetB off]) none))
    (request : ∀ c, cmdInt c = true → P (.cmd c) (s.after { s.regs with irq := true } [.irq true] none))
    (store : ∀ c, cmdInt c = false → P (.cmd c) (s.after { s.regs with cmd := cmdVal c } [] none))
    (ack : ∀ v, P (.ack v) (s.after { s.regs with irq := false } [.irq false] none))
    (rcl : P .rcl (s.after s.regs [] (some (zext8 s.regs.cmd))))
    (rst : P .rst (s.after (resetRegisters s.board) [] none)) : P i t := by
  have done : ∀ {u : State}, exec i s = .next u → P i u → P i t := by
    intro u hu hp
    rw [h] at hu
    injection hu with hu
    rw [hu]
    exact hp
  cases i with
  | wp1 v => exact done (exec_wp1 v s) (wp1 v)
  | wp2 v => exact done (exec_wp2 v s) (wp2 v)
  | rp1 => exact done (exec_rp1 s) rp1
  | rp2 => exact done (exec_rp2 s) rp2
  | smp => exact done (exec_smp s) smp
  | pbw b => exact done (exec_pbw b s) (pbw b)
  | paw a => exact done (exec_paw a s) (paw a)
  | adwa off v =>
    cases hv : s.board.adpcmVariant with
    | a => exact done (exec_adwa_wired hv off v) (adwa off v hv)
    | b => rw [exec_adwa_refused hv] at h; cases h
  | adwb off v =>
    cases hv : s.board.adpcmVariant with
    | a => rw [exec_adwb_refused hv] at h; cases h
    | b => exact done (exec_adwb_wired hv off v) (adwb off v hv)
  | cmd c =>
    cases hc : cmdInt c with
    | false => exact done (exec_cmd_store hc s) (store c hc)
    | true => exact done (exec_cmd_request hc s) (request c hc)
  | ack v => exact done (exec_ack v s) (ack v)
  | rcl => exact done (exec_rcl s) rcl
  | rst => exact done (exec_rst s) rst

/-- The record and the outputs of an operation fix its whole next state: the board and the inputs still to come are
untouched, and the operation counter advances by one. -/
theorem exec_next_after {i : Instr} {s t : State} (h : exec i s = .next t) :
    t = s.after t.regs t.out t.result := by
  refine exec_cases (P := fun _ t => t = s.after t.regs t.out t.result) h ?_ ?_ ?_ ?_ ?_ ?_ ?_ ?_ ?_ ?_ ?_ ?_ ?_ ?_ <;>
    intros <;> rfl

/-- No operation changes the board. -/
theorem exec_board {i : Instr} {s t : State} (h : exec i s = .next t) : t.board = s.board := by
  rw [exec_next_after h]
  rfl

/-- No operation touches the inputs still to come. -/
theorem exec_pending {i : Instr} {s t : State} (h : exec i s = .next t) : t.pending = s.pending := by
  rw [exec_next_after h]
  rfl

end Sys2Proof.Machine
end

