-- ==== Sys2Proof/Laws/PerInstr.lean ====
section
/-! SUPPORT. The per-instruction family EncodesItsRow: the word the encoder writes for an operation matches the row
that 30_encoding.md R79's match and mask table gives the operation. One lemma for each constructor of Instr. -/

namespace Sys2Proof.Laws.EncodesItsRow

/-- The encoded word matches the operation's row. -/
def Statement (i : Instr) : Prop := encode i &&& i.encodingRow.mask = i.encodingRow.pattern

theorem wp1 (v : Byte) : Statement (.wp1 v) := (packWord_and_ff00 0x1 0 v).trans rfl

theorem wp2 (v : Byte) : Statement (.wp2 v) := (packWord_and_ff00 0x2 0 v).trans rfl

theorem rp1 : Statement .rp1 := show _ = _ from by decide

theorem rp2 : Statement .rp2 := show _ = _ from by decide

theorem smp : Statement .smp := show _ = _ from by decide

theorem pbw (b : Byte) : Statement (.pbw b) := (packWord_and_ff00 0x6 0 b).trans rfl

theorem paw (a : Byte) : Statement (.paw a) := (packWord_and_ff00 0x7 0 a).trans rfl

theorem adwa (off : BitVec 2) (v : Byte) : Statement (.adwa off v) :=
  (packWord_and_fc00 0x8 off v).trans rfl

theorem adwb (off : BitVec 1) (v : Byte) : Statement (.adwb off v) :=
  (packWord_and_fe00 0x9 off v).trans rfl

theorem cmd (c : Byte) : Statement (.cmd c) := (packWord_and_ff00 0xA 0 c).trans rfl

theorem ack (v : Byte) : Statement (.ack v) := (packWord_and_ff00 0xB 0 v).trans rfl

theorem rcl : Statement .rcl := show _ = _ from by decide

theorem rst : Statement .rst := show _ = _ from by decide

end Sys2Proof.Laws.EncodesItsRow
end

