-- ==== Sys2Proof/Laws/Run.lean ====
section
/-! SUPPORT. What a run of operations is, one operation at a time, for inductions over runs; and the edge predicate and
the decode source in the words of the rules. -/

namespace Sys2Proof.Machine

@[simp] theorem runOps_nil (s : State) : runOps [] s = some (s, []) := rfl

/-- A run of one operation more: the operation, then the rest, the operation's events first. -/
theorem runOps_cons_eq_some {i : Instr} {is : List Instr} {s u : State} {evs : List Event} :
    runOps (i :: is) s = some (u, evs) ↔
      ∃ (t : State) (e : List Event), exec i s = .next t ∧ runOps is t = some (u, e) ∧ evs = t.out ++ e := by
  constructor
  · intro h
    simp only [runOps] at h
    split at h <;> try cases h
    next t ht =>
      split at h <;> try cases h
      next u' e hu => exact ⟨t, e, ht, hu, rfl⟩
  · rintro ⟨t, e, ht, hu, rfl⟩
    simp [runOps, ht, hu]

/-- A run of two sequences is the first run and then the second, from the state the first left. -/
theorem runOps_append {xs ys : List Instr} {s t u : State} {e₁ e₂ : List Event}
    (h₁ : runOps xs s = some (t, e₁)) (h₂ : runOps ys t = some (u, e₂)) :
    runOps (xs ++ ys) s = some (u, e₁ ++ e₂) := by
  induction xs generalizing s e₁ with
  | nil =>
    simp only [runOps_nil, Option.some.injEq, Prod.mk.injEq] at h₁
    obtain ⟨rfl, rfl⟩ := h₁
    exact h₂
  | cons i is ih =>
    obtain ⟨a, e, ha, hr, rfl⟩ := runOps_cons_eq_some.mp h₁
    exact runOps_cons_eq_some.mpr ⟨a, _, ha, ih hr, List.append_assoc ..⟩

/-- No run changes the board. -/
theorem runOps_board {is : List Instr} {s u : State} {evs : List Event} (h : runOps is s = some (u, evs)) :
    u.board = s.board := by
  induction is generalizing s evs with
  | nil =>
    simp only [runOps_nil, Option.some.injEq, Prod.mk.injEq] at h
    rw [h.1]
  | cons i is ih =>
    obtain ⟨t, e, ht, hu, -⟩ := runOps_cons_eq_some.mp h
    rw [ih hu, exec_board ht]

/-- A falling edge is a 1-to-0 transition of bit 0 (30_encoding.md R77). -/
theorem fall_iff {prev new : Byte} : fall prev new = true ↔ prev.getLsbD 0 = true ∧ new.getLsbD 0 = false := by
  simp [fall, stb]

/-- The decode source is the new value under NEW and the previous one otherwise (40_control_bus_latch.md R102). -/
theorem decodeSource_eq (b : Board) (prev new : Byte) :
    decodeSource b prev new = if b.latchDecodeSource = .new then new else prev := by
  cases h : b.latchDecodeSource <;> simp [decodeSource, h]

end Sys2Proof.Machine
end

