-- ==== Sys2Proof/Tests/Slice0.lean ====
section
/-! SUPPORT. Tests with expected results taken from spec/ (95_test_vectors.md unless another file is named), the
smoke tests of WellFormed, and a witness for the hypotheses of each statement that has some. -/

namespace Sys2Proof.Tests

open Sys2Proof.Machine

/-- The events of an outcome. -/
def outOf : Host.Outcome State Fault Refusal → Option (List Event)
  | .next s => some s.out
  | .fault _ => none
  | .refused _ => none

/-- The record of an outcome. -/
def regsOf : Host.Outcome State Fault Refusal → Option Registers
  | .next s => some s.regs
  | .fault _ => none
  | .refused _ => none

/-- The returned byte of an outcome. -/
def resultOf : Host.Outcome State Fault Refusal → Option (Option Byte)
  | .next s => some s.result
  | .fault _ => none
  | .refused _ => none

/-- The refusal of an outcome. -/
def refusalOf : Host.Outcome State Fault Refusal → Option Refusal
  | .next _ => none
  | .fault _ => none
  | .refused r => some r

/-- The events of a run. -/
def eventsOf : Option (State × List Event) → Option (List Event)
  | some x => some x.2
  | none => none

/-- A board without the secondary decoder. -/
def singleBoard : Board := { standardBoard with secondaryPresent := false }

/-- A board that wires ADPCM variant B. -/
def boardB : Board := { standardBoard with adpcmVariant := .b }

/-- A board with the hedge setting of the decode source. -/
def boardPrevious : Board := { standardBoard with latchDecodeSource := .previous }

/-- A state on a board with the given latches, everything else as after reset. -/
def latched (b : Board) (p1 p2 : Byte) (m l : Option Byte) : State :=
  { State.resetOn b with
    regs := { resetRegisters b with port1 := p1, port2 := p2, psgAddrM := m, psgAddrL := l } }

/-! ### Words written out from 30_encoding.md R78 and R79, one for each constructor -/

theorem test_decode_wp1 : decode 0b0001000010101011 = .ok (.wp1 0xAB) := by rfl
theorem test_decode_wp2 : decode 0b0010000000001101 = .ok (.wp2 0x0D) := by rfl
theorem test_decode_rp1 : decode 0b0011000000000000 = .ok .rp1 := by rfl
theorem test_decode_rp2 : decode 0b0100000000000000 = .ok .rp2 := by rfl
theorem test_decode_smp : decode 0b0101000000000000 = .ok .smp := by rfl
theorem test_decode_pbw : decode 0b0110000000010111 = .ok (.pbw 0x17) := by rfl
theorem test_decode_paw : decode 0b0111000011111010 = .ok (.paw 0xFA) := by rfl
theorem test_decode_adwa : decode 0b1000001001000011 = .ok (.adwa 2 0x43) := by rfl
theorem test_decode_adwb : decode 0b1001000100110011 = .ok (.adwb 1 0x33) := by rfl
theorem test_decode_cmd : decode 0b1010000011111111 = .ok (.cmd 0xFF) := by rfl
theorem test_decode_ack : decode 0b1011000011111111 = .ok (.ack 0xFF) := by rfl
theorem test_decode_rcl : decode 0b1100000000000000 = .ok .rcl := by rfl
theorem test_decode_rst : decode 0b1101000000000000 = .ok .rst := by rfl

/-- Section 2.12. -/
theorem test_reserved_words :
    decode 0x0000 = .error .op ∧ decode 0xE000 = .error .op ∧ decode 0xF123 = .error .op ∧
      decode 0x1400 = .error .bits11to10 ∧ decode 0x2100 = .error .off ∧ decode 0x9200 = .error .adwbOff1 ∧
      decode 0x3001 = .error .data := by
  refine ⟨?_, ?_, ?_, ?_, ?_, ?_, ?_⟩ <;> rfl

theorem test_decodeTableWord : decodeTableWord 16 0x835A = some (.adwa 3 0x5A) ∧ decodeTableWord 16 0x0000 = none := by
  decide

/-- 30_encoding.md R83: a missing operand of ACK means 0x00, an offset past the variant's is no line. -/
theorem test_trace_lines :
    ofTraceLine "ACK" [] = some (.ack 0) ∧ ofTraceLine "ADWA" [3, 0x5A] = some (.adwa 3 0x5A) ∧
      ofTraceLine "ADWB" [2, 0] = none ∧ ofTraceLine "WP1" [256] = none := by
  decide

/-! ### WellFormed: one ill-formed term for each check -/

theorem test_adwa_ill_formed_on_variant_b : (Instr.adwa 3 0x5A).wellFormed boardB = false := by decide
theorem test_adwb_ill_formed_on_variant_a : (Instr.adwb 1 0x33).wellFormed standardBoard = false := by decide
theorem test_board_needs_primary : ({ standardBoard with primaryPresent := false } : Board).hasCollaborators = false := by
  decide
theorem test_board_needs_psg_m : ({ standardBoard with psgMPresent := false } : Board).hasCollaborators = false := by
  decide
theorem test_board_needs_psg_l : ({ standardBoard with psgLPresent := false } : Board).hasCollaborators = false := by
  decide
theorem test_single_board_is_whole : singleBoard.hasCollaborators = true := by decide

/-- 42_psg_port_handlers.md R141 with G2 and G3: the default `SEC_MODE` keeps bit 2 and always selects the slave
setting 0b11. -/
theorem test_default_secMode : ∀ f : Mode, standardBoard.secMode f = (f &&& 0b100) ||| 0b011 := by decide

/-- A board whose table passes the whole field through still overrides the rate with the slave setting (R141). -/
theorem test_secMode_of_identity_table_is_slave :
    ∀ f : Mode, ({ standardBoard with secModeTable := secModeTableOf id } : Board).secMode f =
      (f &&& 0b100) ||| 0b011 := by decide

/-- A board with another encoding: bit 2 alone selects the rate and 0 is the slave setting. -/
theorem test_secMode_other_sub_field :
    ({ standardBoard with
        secRateField := ⟨0b100, by decide⟩, secSlaveSetting := 0, secModeTable := secModeTableOf id } : Board).secMode
      0b111 = 0b011 := by decide

/-! ### The operations, section 2 -/

theorem test_wp1 : regsOf (exec (.wp1 0x34) (latched standardBoard 0x12 0x01 none none)) =
    some { resetRegisters standardBoard with port1 := 0x34, port2 := 0x01 } := by decide

/-- V4: a select edge on M. -/
theorem test_wp2_select_m : outOf (exec (.wp2 0x0C) (latched standardBoard 0x42 0x0D (some 0x03) (some 0x09))) =
    some [.psgAddr .m 0x42] := by decide

/-- V8: a data edge on L. -/
theorem test_wp2_data_l : outOf (exec (.wp2 0x10) (latched standardBoard 0x42 0x11 (some 0x03) (some 0x09))) =
    some [.psgData .l (some 0x09) 0x42] := by decide

/-- The decode-source vector under NEW and under PREVIOUS. -/
theorem test_wp2_decode_source :
    outOf (exec (.wp2 0x10) (latched standardBoard 0x42 0x0D none none)) = some [.psgData .l none 0x42] ∧
      outOf (exec (.wp2 0x10) (latched boardPrevious 0x42 0x0D none none)) = some [.psgAddr .m 0x42] := by decide

/-- V9: a broadcast data edge emits both data writes, in either order. -/
theorem test_wp2_broadcast :
    outOf (exec (.wp2 0x18) (latched standardBoard 0x42 0x19 (some 0x03) (some 0x09))) =
        some [.psgData .m (some 0x03) 0x42, .psgData .l (some 0x09) 0x42] ∨
      outOf (exec (.wp2 0x18) (latched standardBoard 0x42 0x19 (some 0x03) (some 0x09))) =
        some [.psgData .l (some 0x09) 0x42, .psgData .m (some 0x03) 0x42] := by
  rw [exec_wp2, outOf, State.after_out, commitAccess_events]
  rcases inFreeOrder_cases 0 [Psg.m, Psg.l] with h | h
  · exact .inl (congrArg
      (fun l => some (l.map (accessEvent 0x18 (latched standardBoard 0x42 0x19 (some 0x03) (some 0x09)).regs))) h)
  · exact .inr (congrArg
      (fun l => some (l.map (accessEvent 0x18 (latched standardBoard 0x42 0x19 (some 0x03) (some 0x09)).regs))) h)

/-- 2.3: no select bit gives 0xFF; with both, PSG M is read, whatever byte it answers. -/
theorem test_rp1_none : resultOf (exec .rp1 (latched standardBoard 0x00 0xE7 (some 0x0E) (some 0x0F))) =
    some (some 0xFF) := by decide

theorem test_rp1_both : outOf (exec .rp1 (latched standardBoard 0x00 0x18 (some 0x0E) (some 0x0F))) =
    some [.psgRead .m (some 0x0E) (Config.psgRead .m (some 0x0E) 0)] := by rfl

theorem test_rp2 : resultOf (exec .rp2 (latched { standardBoard with port2ReadValue := 0xFF } 0 0x1D none none)) =
    some (some 0xFF) := by decide

theorem test_smp : outOf (exec .smp (State.resetOn standardBoard)) = some [.nmi, .secClk true, .secClk false] := by decide
theorem test_smp_single : outOf (exec .smp (State.resetOn singleBoard)) = some [.nmi] := by decide

/-- 2.6, the byte 0x19. -/
theorem test_pbw : outOf (exec (.pbw 0x19) (State.resetOn standardBoard)) =
    some [.decMode .primary 6, .decMode .secondary 7, .decReset .primary true, .decReset .secondary false] := by decide
theorem test_pbw_single : outOf (exec (.pbw 0x0A) (State.resetOn singleBoard)) =
    some [.decMode .primary 2, .decReset .primary false] := by decide

/-- 2.7, the byte 0x0A, and 0x01 with SD absent. -/
theorem test_paw : outOf (exec (.paw 0x0A) (State.resetOn standardBoard)) =
    some [.line .bd false, .line .sd true, .line .oh false, .line .ch true] := by decide
theorem test_paw_absent_line :
    outOf (exec (.paw 0x01) (State.resetOn { standardBoard with linePresent := ⟨true, false, true, true⟩ })) =
      some [.line .bd true, .line .oh false, .line .ch false] := by decide

/-- 2.8 and 2.9. -/
theorem test_adwa : outOf (exec (.adwa 2 0x77) (State.resetOn standardBoard)) = some [.decData .secondary 0x77] := by
  decide
theorem test_adwa_single : outOf (exec (.adwa 2 0x77) (State.resetOn singleBoard)) = some [] := by decide
theorem test_adwb : outOf (exec (.adwb 1 0x0C) (State.resetOn boardB)) = some [.decData .secondary 0x0C] := by decide
theorem test_adwb_refused : refusalOf (exec (.adwb 1 0x0C) (State.resetOn standardBoard)) =
    some .adpcmVariantNotWired := by decide

/-- 2.10. -/
theorem test_cmd_store : regsOf (exec (.cmd 0x7F) (State.resetOn standardBoard)) =
    some { resetRegisters standardBoard with cmd := 0x7F } := by decide
theorem test_cmd_request : regsOf (exec (.cmd 0x80) (State.resetOn standardBoard)) =
    some { resetRegisters standardBoard with irq := true } := by decide
theorem test_ack : outOf (exec (.ack 0xA5) (State.resetOn standardBoard)) = some [.irq false] := by decide
theorem test_rcl : eventsOf (runOps [.cmd 0x2A, .rcl] (State.resetOn standardBoard)) = some [] ∧
    resultOf (exec .rcl { State.reset with regs := { State.reset.regs with cmd := 0x2A } }) = some (some 0x2A) := by decide

/-- 2.11, from the example's state. -/
theorem test_rst : regsOf (exec .rst
    { State.reset with
      regs :=
        { port1 := 0xAB, port2 := 0x08, psgAddrM := some 0x07, psgAddrL := some 0x09
          decoder1 := ⟨some 5, some false⟩, decoder2 := some ⟨some 7, some false⟩
          irq := true, cmd := 0x55, line := ⟨true, false, true, false⟩ } }) =
    some (resetRegisters standardBoard) := by decide

/-- The programs' first steps: a placed word runs at the next step, ADWB's on a board of its variant. -/
theorem test_withFetchWord :
    outOf (step (State.reset.withFetchWord 16 0x5000)) = some [.nmi, .secClk true, .secClk false] ∧
      outOf (step (State.reset.withFetchWord 16 0x9033)) = some [.decData .primary 0x33] ∧
      refusalOf (step (State.reset.withFetchWord 16 0x2100)) = some (.reservedWord .off) := by decide

/-- A bus access above `ADDR_ADPCM_BASE` (20_memory.md R51), and one that addresses no entry point. -/
theorem test_bus :
    decodeBus standardBoard ⟨.mcuMemory, 3, some 0x5A⟩ = some (.adwa 3 0x5A) ∧
      decodeBus standardBoard ⟨.mcuMemory, 3, none⟩ = none := by decide

/-! ### Witnesses: states and operands that meet the hypotheses of the statements, by statement -/

theorem witness_WritePort2WithoutEdgeOnlyStores :
    ¬((latched standardBoard 0 0x00 none none).regs.port2.getLsbD 0 = true ∧ (0x0D : Byte).getLsbD 0 = false) := by
  decide

theorem witness_WritePort2CommitsOnFallingEdge :
    (0x0C : Byte) = (if (latched standardBoard 0 0x0D none none).board.latchDecodeSource = .new then 0x0C else 0x0D) ∧
      (0x0D : Byte) = (if (latched boardPrevious 0 0x0D none none).board.latchDecodeSource = .new then 0x0C
        else (latched boardPrevious 0 0x0D none none).regs.port2) := by decide

theorem witness_BroadcastDataEdgeWritesBothPsgs :
    fall (latched standardBoard 0 0x19 none none).regs.port2 0x18 = true ∧
      ph (decodeSource standardBoard 0x19 0x18) = false ∧
      sel standardBoard (decodeSource standardBoard 0x19 0x18) .m = true ∧
      sel standardBoard (decodeSource standardBoard 0x19 0x18) .l = true := by decide

/-- L1.10: the hypotheses of both clauses, at the values 0x0D, 0x0C, 0x09, 0x08. -/
theorem witness_DataWriteReachesTheSelectedRegister :
    (fall 0x09 0x08 = true ∧ ph (decodeSource standardBoard 0x09 0x08) = false ∧
        sel standardBoard (decodeSource standardBoard 0x09 0x08) .m = true) ∧
      fall 0x0D 0x0C = true ∧ ph (decodeSource standardBoard 0x0D 0x0C) = true ∧
      sel standardBoard (decodeSource standardBoard 0x0D 0x0C) .m = true ∧ stb 0x09 = true ∧ stb 0x08 = false ∧
      eventsOf (runOps [.wp2 0x0C, .wp2 0x09, .wp2 0x08] (latched standardBoard 0x0E 0x0D none none)) =
        some [.psgAddr .m 0x0E, .psgData .m (some 0x0E) 0x0E] := by decide

/-- A run without reset that ends before a data edge on M. -/
theorem witness_DataEdgeReachesMostRecentSelect :
    ∃ (u : State) (evs : List Event),
      runOps [.wp2 0x0C, .wp1 0xAB, .wp2 0x09] (latched standardBoard 0x07 0x0D none none) = some (u, evs) ∧
      Instr.rst ∉ ([.wp2 0x0C, .wp1 0xAB, .wp2 0x09] : List Instr) ∧ fall u.regs.port2 0x08 = true ∧
      ph (decodeSource u.board u.regs.port2 0x08) = false ∧
      sel u.board (decodeSource u.board u.regs.port2 0x08) .m = true := by
  refine ⟨_, _, rfl, ?_, ?_, ?_, ?_⟩ <;> decide

/-- L1.1's sequence: one select bit at every edge, two strict transitions. -/
theorem witness_OneSelectPerEdgeCountsStrictFalls :
    oneSelectPerEdge standardBoard 0x00 [0x0D, 0x0D, 0x0C, 0x0C, 0x0D, 0x0C] ∧
      strictFalls 0x00 [0x0D, 0x0D, 0x0C, 0x0C, 0x0D, 0x0C] = 2 := by
  refine ⟨⟨?_, ?_, ?_, ?_, ?_, ?_, trivial⟩, ?_⟩ <;> decide

theorem witness_DecodeSourceIrrelevantUnderDiscipline :
    ph 0x0C = ph (latched standardBoard 0 0x0D none none).regs.port2 ∧
      ∀ p : Psg, sel standardBoard 0x0C p = sel standardBoard 0x0D p := by
  refine ⟨by decide, fun p => ?_⟩
  cases p <;> decide

/-- writePort1 changes `port1`; and readPort1 is an operation of the second clause. -/
theorem witness_Port1WrittenByWp1AndSeenByEdgesOnly :
    (∃ t : State, exec (.wp1 0x07) State.reset = .next t ∧ t.regs.port1 ≠ State.reset.regs.port1) ∧
      (∃ t : State, exec (.wp2 0x0D) State.reset = .next t) ∧
      ∀ v : Byte, Instr.wp2 0x0D = .wp2 v → fall State.reset.regs.port2 v = false := by
  refine ⟨⟨_, rfl, by decide⟩, ⟨_, rfl⟩, fun v h => ?_⟩
  injection h with h
  rw [← h]
  decide

theorem witness_ReadPort1WithNoSelectReturnsFF :
    (latched standardBoard 0 0xE7 none none).regs.port2.getLsbD standardBoard.selBitM = false ∧
      (latched standardBoard 0 0xE7 none none).regs.port2.getLsbD standardBoard.selBitL = false := by decide

/-- M alone, M of both under the policy, L alone. -/
theorem witness_ReadPort1ReadsTheSelectedPsg :
    ((0x08 : Byte).getLsbD standardBoard.selBitM = true ∧ (0x08 : Byte).getLsbD standardBoard.selBitL = false) ∧
      ((0x18 : Byte).getLsbD standardBoard.selBitM = true ∧ standardBoard.readBothPolicy = .mPriority) ∧
      (0x10 : Byte).getLsbD standardBoard.selBitM = false ∧ (0x10 : Byte).getLsbD standardBoard.selBitL = true := by
  decide

theorem witness_ReadPort1WithBothSelectsUnderAny :
    ({ standardBoard with readBothPolicy := .any } : Board).readBothPolicy = .any ∧
      (0x18 : Byte).getLsbD standardBoard.selBitM = true ∧ (0x18 : Byte).getLsbD standardBoard.selBitL = true := by decide

/-- P3's sample periods: a run with two samples and its three-event groups. -/
theorem witness_runs_with_samples :
    eventsOf (runOps [.smp, .adwa 1 0x21, .adwa 2 0x43, .smp] (State.resetOn standardBoard)) =
      some [.nmi, .secClk true, .secClk false, .decData .primary 0x21, .decData .secondary 0x43, .nmi, .secClk true,
        .secClk false] := by decide

theorem witness_NoStepEmitsNmiAndIrq : ∃ t : State, exec .smp State.reset = .next t ∧ .nmi ∈ t.out :=
  ⟨_, rfl, by decide⟩

/-- A run without port-B write and without reset, from a driven state. -/
theorem witness_DecoderResetIsALevel :
    State.reset.board.secondaryPresent = true ∧
      (∀ v : Byte, Instr.pbw v ∉ ([.wp1 0x14, .smp] : List Instr)) ∧ Instr.rst ∉ ([.wp1 0x14, .smp] : List Instr) ∧
      eventsOf (runOps [.wp1 0x14, .smp] State.reset) = some [.nmi, .secClk true, .secClk false] := by
  refine ⟨by decide, fun v => by simp, by decide, by decide⟩

/-- A step that drives the secondary's mode, and a `SEC_MODE` with the two properties. -/
theorem witness_SecondaryAlwaysDrivenAsSlave :
    (∃ t : State, exec (.pbw 0x14) State.reset = .next t ∧ .decMode .secondary 0b111 ∈ t.out) ∧
      (0b011 : Mode) ≠ 0 ∧ forcesSlave 0b011 0b011 defaultSecMode :=
  ⟨⟨_, rfl, by decide⟩, by decide, by unfold forcesSlave; decide⟩

/-- Both variants, for the statements on the two ADPCM writes. -/
theorem witness_adpcm_variants :
    (State.resetOn standardBoard).board.adpcmVariant = .a ∧ (State.resetOn boardB).board.adpcmVariant = .b := by decide

/-- A command of each kind. -/
theorem witness_SubmitCommandStoresOrRequests : (0x55 : Byte).getLsbD 7 = false ∧ (0xFF : Byte).getLsbD 7 = true := by
  decide

/-- A request held through a run without acknowledge and reset, and a second one. -/
theorem witness_IrqStaysSetUntilAcknowledged :
    (∃ u : State, runOps [.cmd 0x12, .rcl] { State.reset with regs := { State.reset.regs with irq := true } } =
        some (u, [])) ∧
      (∀ v : Byte, Instr.ack v ∉ ([.cmd 0x12, .rcl] : List Instr)) ∧ Instr.rst ∉ ([.cmd 0x12, .rcl] : List Instr) ∧
      (0x80 : Byte).getLsbD 7 = true :=
  ⟨⟨_, rfl⟩, fun v => by simp, by decide, by decide⟩

/-- P4: the command that a run of submissions leaves. -/
theorem witness_CommandLatchHoldsTheLastCommand :
    (∃ u : State, runOps [.cmd 0x55, .cmd 0xFF, .rcl, .cmd 0x12] State.reset = some (u, [.irq true])) ∧
      Instr.rst ∉ ([.cmd 0x55, .cmd 0xFF, .rcl, .cmd 0x12] : List Instr) ∧
      lastCommand 0 [.cmd 0x55, .cmd 0xFF, .rcl, .cmd 0x12] = 0x12 :=
  ⟨⟨_, rfl⟩, by decide, by decide⟩

/-- A bit-7 command that changes the latch, and is no reset. -/
theorem witness_IrqLineFollowsTheLatch :
    (0xFF : Byte).getLsbD 7 = true ∧ Instr.cmd 0xFF ≠ .rst ∧
      ∃ t : State, exec (.cmd 0xFF) State.reset = .next t ∧ .irq true ∈ t.out ∧ t.regs.irq ≠ State.reset.regs.irq :=
  ⟨by decide, by decide, _, rfl, by decide, by decide⟩

theorem witness_MissingCollaboratorIsRefused :
    (standardBoard.primaryPresent = true ∧ standardBoard.psgMPresent = true ∧ standardBoard.psgLPresent = true) ∧
      ({ standardBoard with psgLPresent := false } : Board).psgLPresent = false := by decide

theorem witness_SnapshotRestoresEveryField :
    (latched standardBoard 0x07 0x0D none none).board = State.reset.board ∧
      (latched standardBoard 0x07 0x0D none none).regs.decoder2.isSome = standardBoard.secondaryPresent := by decide

/-- Words of each reserved group and an accepted one. -/
theorem witness_decoder_statements :
    decode 0x1007 = .ok (.wp1 0x07) ∧ ((0x1400 : Word).extractLsb' 12 4).toNat = 1 ∧ (0x1400 : Word).extractLsb' 10 2 ≠ 0 ∧
      (0x2100 : Word).extractLsb' 8 2 ≠ 0 ∧ ((0x9200 : Word).extractLsb' 8 2).getLsbD 1 = true ∧
      (0x3001 : Word).extractLsb' 0 8 ≠ 0 :=
  ⟨rfl, by decide, by decide, by decide, by decide, by decide⟩

theorem witness_IgnoredOperandBitsHaveNoEffect :
    (0x00 : Byte).extractLsb' 0 5 = (0xE0 : Byte).extractLsb' 0 5 ∧
      (0x0A : Byte).extractLsb' 0 4 = (0xFA : Byte).extractLsb' 0 4 ∧
      (0x80 : Byte).getLsbD 7 = true ∧ (0xFF : Byte).getLsbD 7 = true := by decide

/-- Two states that differ in bits 1, 5, 6 and 7 of `port2` only. -/
theorem witness_IgnoredPort2BitsAreNeverObserved :
    sameButIgnoredPort2Bits (latched standardBoard 0x42 0x1D none none) (latched standardBoard 0x42 0xFF none none) := by
  refine ⟨rfl, by decide, by decide, fun p => ?_⟩
  cases p <;> decide

/-- A state whose next input is a word that decodes, one whose next is a reserved word, one with no input. -/
theorem witness_step_statements :
    State.reset.board.hasCollaborators = true ∧
      ({ State.reset with pending := [.word 0x1007] } : State).pending = .word 0x1007 :: [] ∧
      decode 0x1007 = .ok (.wp1 0x07) ∧ decode 0x2100 = .error .off ∧ State.reset.pending = [] :=
  ⟨by decide, rfl, rfl, rfl, rfl⟩

/-- Addresses that do not collide, at both edges of the ADPCM window. -/
theorem witness_BusAccessesReachTheirEntryPoints :
    standardBoard.addresses.port1 ≠ standardBoard.addresses.port2 ∧
      standardBoard.addresses.adpcmBase + 4 ≤ standardBoard.addresses.ack ∧
      decodeBus standardBoard ⟨.mcuMemory, 0, some 1⟩ = some (.adwa 0 1) ∧
      decodeBus boardB ⟨.mcuMemory, 1, some 1⟩ = some (.adwb 1 1) ∧
      decodeBus standardBoard ⟨.mcuMemory, 4, some 1⟩ = some (.ack 1) := by decide

theorem witness_AbsentSecondaryIsANoOp :
    ∃ t : State, exec (.pbw 0x19) { State.reset with board := { State.reset.board with secondaryPresent := true } } =
      .next t := ⟨_, rfl⟩

/-- A writer that is not the host. -/
theorem witness_EachRegisterHasOneWriter :
    mayInvoke standardBoard .mainCpu (.cmd 0xFF) = true ∧ (Agent.mainCpu ≠ .host) ∧
      ∃ t : State, exec (.cmd 0xFF) State.reset = .next t ∧ State.reset.regs.irq = false ∧ t.regs.irq = true :=
  ⟨by decide, by decide, _, rfl, by decide, by decide⟩

/-- Two states that differ in `port1`, `irq` and the lines, and both read the command. -/
theorem witness_OnlyThreeRegistersReadBack :
    ∃ t u w : State, t = { State.reset with regs := { State.reset.regs with port1 := 0x12, irq := true } } ∧
      State.reset.board = t.board ∧ State.reset.opIndex = t.opIndex ∧ State.reset.regs.cmd = t.regs.cmd ∧
      exec .rcl State.reset = .next u ∧ exec .rcl t = .next w :=
  ⟨_, _, _, rfl, rfl, rfl, rfl, rfl, rfl⟩

theorem witness_RepeatedOperationLeavesTheRecord :
    ∃ t u : State, exec (.paw 0x0A) State.reset = .next t ∧ exec (.paw 0x0A) t = .next u := ⟨_, _, rfl, rfl⟩

/-- A run with operations that write no state among ones that do; and no reset in it. -/
theorem witness_run_statements :
    (∃ u : State, runOps [.wp1 0x14, .smp, .rcl, .paw 0x05] State.reset =
        some (u, [.nmi, .secClk true, .secClk false, .line .bd true, .line .sd false, .line .oh true, .line .ch false])) ∧
      Instr.rst ∉ ([.wp1 0x14, .smp, .rcl, .paw 0x05] : List Instr) :=
  ⟨⟨_, rfl⟩, by decide⟩

/-- Runs of two agents that follow one another, neither with a bit-7 command, one with an acknowledge. -/
theorem witness_RunsCompose :
    (∃ t u : State, runOps [.cmd 0x55] State.reset = some (t, []) ∧
        runOps [.wp1 0x07, .ack 0] t = some (u, [.irq false])) ∧
      (∀ x ∈ ([.cmd 0x55] : List Instr), mayInvoke standardBoard .mainCpu x = true) ∧
      (∀ y ∈ ([.wp1 0x07, .ack 0] : List Instr), mayInvoke standardBoard .microcontroller y = true) ∧
      (Agent.mainCpu ≠ .microcontroller ∧ Agent.mainCpu ≠ .host ∧ Agent.microcontroller ≠ .host) ∧
      ∀ v c : Byte, Instr.ack v ∈ ([.cmd 0x55] : List Instr) ++ [.wp1 0x07, .ack 0] →
        Instr.cmd c ∈ ([.cmd 0x55] : List Instr) ++ [.wp1 0x07, .ack 0] → c.getLsbD 7 = false := by
  refine ⟨⟨_, _, rfl, rfl⟩, by decide, by decide, by decide, fun v c _ hc => ?_⟩
  have hc' : c = 0x55 := by simpa using hc
  rw [hc']
  decide

/-- An acknowledge and a bit-7 command do not commute, so the premise of `RunsCompose` on them is needed. -/
theorem test_request_and_acknowledge_do_not_commute :
    (runOps [.cmd 0x80, .ack 0] State.reset).map (fun x => x.1.regs.irq) = some false ∧
      (runOps [.ack 0, .cmd 0x80] State.reset).map (fun x => x.1.regs.irq) = some true := by decide

theorem witness_BoardNeverChanges : ∃ t : State, Host.Core.run Sys2Proof.core 2 State.reset = .next t := ⟨_, rfl⟩

/-- A consistent state that a step leaves: reset with a port-B write to come and a restore after it. -/
theorem witness_DecoderDriveStaysConsistent :
    ∃ t : State,
      ({ State.reset with pending := [.word 0x6017, .restore (resetRegisters standardBoard)] } : State).consistent ∧
      step { State.reset with pending := [.word 0x6017, .restore (resetRegisters standardBoard)] } = .next t := by
  have h : decodersConsistent standardBoard (resetRegisters standardBoard) :=
    ⟨rfl, fun h => absurd h (by decide), fun _ => ⟨undrivenDecoder, rfl, rfl, rfl⟩⟩
  refine ⟨_, ⟨h, fun r hr => ?_⟩, rfl⟩
  have hr' : r = resetRegisters standardBoard := by simpa using hr
  rw [hr']
  exact h

end Sys2Proof.Tests
end

/-! PROOFS. The two statements of 00_scope.md: every operation completes exactly on the boards that have it (R10), and
a board without the secondary loses exactly the part of each operation addressed to decoder 2 (R11). -/

namespace Sys2Proof.Machine

/-! ### Totality (00_scope.md R10) -/

/-- An operation that exists on the board completes, whatever its operand and the state. -/
theorem exec_completes_of_wellFormed {i : Instr} {s : State} (h : i.wellFormed s.board = true) :
    ∃ t : State, exec i s = .next t := by
  cases i with
  | wp1 v => exact ⟨_, exec_wp1 v s⟩
  | wp2 v => exact ⟨_, exec_wp2 v s⟩
  | rp1 => exact ⟨_, exec_rp1 s⟩
  | rp2 => exact ⟨_, exec_rp2 s⟩
  | smp => exact ⟨_, exec_smp s⟩
  | pbw b => exact ⟨_, exec_pbw b s⟩
  | paw a => exact ⟨_, exec_paw a s⟩
  | adwa off v => exact ⟨_, exec_adwa_wired (of_decide_eq_true h) off v⟩
  | adwb off v => exact ⟨_, exec_adwb_wired (of_decide_eq_true h) off v⟩
  | cmd c =>
    cases hc : cmdInt c with
    | false => exact ⟨_, exec_cmd_store hc s⟩
    | true => exact ⟨_, exec_cmd_request hc s⟩
  | ack v => exact ⟨_, exec_ack v s⟩
  | rcl => exact ⟨_, exec_rcl s⟩
  | rst => exact ⟨_, exec_rst s⟩

/-- An operation that completes exists on the board: only an ADPCM write needs anything of it, its own variant. -/
theorem wellFormed_of_exec_next {i : Instr} {s t : State} (h : exec i s = .next t) : i.wellFormed s.board = true :=
  exec_cases (P := fun i _ => i.wellFormed s.board = true) h
    (wp1 := fun _ => rfl) (wp2 := fun _ => rfl) (rp1 := rfl) (rp2 := rfl) (smp := rfl)
    (pbw := fun _ => rfl) (paw := fun _ => rfl)
    (adwa := fun _ _ wired => decide_eq_true wired) (adwb := fun _ _ wired => decide_eq_true wired)
    (request := fun _ _ => rfl) (store := fun _ _ => rfl) (ack := fun _ => rfl) (rcl := rfl) (rst := rfl)

/-- Settles O48: the operations that complete are those that exist on the board. -/
theorem everyOperationIsTotal : Obligations.EveryOperationIsTotal :=
  fun _ _ => ⟨exec_completes_of_wellFormed, fun ⟨_, h⟩ => wellFormed_of_exec_next h⟩

/-! ### The board with and without the secondary (00_scope.md R11) -/

/-- The state on the same board but for `SECONDARY_PRESENT`. What reads no `secondaryPresent` (the PSG accesses, the
read of port 1, the discrete lines) is the same term for both values, so the proofs below pass from one board to the
other there by definition. -/
def State.withSecondary (s : State) (p : Bool) : State :=
  { s with board := { s.board with secondaryPresent := p } }

/-! ### The events left when those addressed to decoder 2 are taken away -/

/-- A list of events less those addressed to decoder 2. -/
def withoutSecondary (evs : List Event) : List Event := evs.filter fun e => !addressesSecondary e

/-- Events of which none is addressed to decoder 2 all stay. -/
theorem withoutSecondary_eq_self {evs : List Event} (h : ∀ e ∈ evs, addressesSecondary e = false) :
    withoutSecondary evs = evs :=
  List.filter_eq_self.mpr fun e he => by simp [h e he]

/-- An edge addresses PSGs only (40_control_bus_latch.md R101). -/
theorem withoutSecondary_commitAccess (b : Board) (n : Nat) (r : Registers) (v : Byte) :
    withoutSecondary (commitAccess b n r v).2 = (commitAccess b n r v).2 := by
  refine withoutSecondary_eq_self fun e he => ?_
  rw [commitAccess_events] at he
  split at he
  case isTrue =>
    obtain ⟨t, -, rfl⟩ := List.mem_map.mp he
    unfold accessEvent
    split <;> rfl
  case isFalse => cases he

/-- A read of port 1 addresses PSGs only (40_control_bus_latch.md R106). -/
theorem withoutSecondary_readPort1Value (b : Board) (n : Nat) (r : Registers) :
    withoutSecondary (readPort1Value b n r).2 = (readPort1Value b n r).2 := by
  rcases readPort1Value_cases b n r with ⟨-, h⟩ | ⟨-, t, -, h⟩ | ⟨-, -, h⟩ <;> rw [h] <;> rfl

/-- The events of one line are not addressed to decoder 2. -/
theorem addressesSecondary_of_mem_lineEvent {b : Board} {a : Byte} {i : Line} {e : Event}
    (h : e ∈ lineEvent b a i) : addressesSecondary e = false := by
  unfold lineEvent at h
  split at h
  case isTrue => rw [List.mem_singleton.mp h]; rfl
  case isFalse => cases h

/-- A port-A byte addresses the discrete lines only (42_psg_port_handlers.md R144). -/
theorem withoutSecondary_lineEvents (b : Board) (a : Byte) :
    withoutSecondary (lineEvents b a) = lineEvents b a := by
  refine withoutSecondary_eq_self fun e he => ?_
  simp only [lineEvents, List.mem_append] at he
  obtain ((he | he) | he) | he := he <;> exact addressesSecondary_of_mem_lineEvent he

/-- Of the events of a sample the NMI pulse is left, which is what the board without the secondary emits
(41_decoder_sync.md R130). -/
theorem withoutSecondary_smp (s : State) :
    withoutSecondary (nmiPulse ++ secondaryClockPulse (s.withSecondary true).board) =
      nmiPulse ++ secondaryClockPulse (s.withSecondary false).board := rfl

/-- Of the events of a port-B byte decoder 1's mode and reset are left, which is what the board without the secondary
emits (42_psg_port_handlers.md R140, R143). -/
theorem withoutSecondary_driveDecodersEvents (s : State) (v : Byte) :
    withoutSecondary (driveDecodersEvents (s.withSecondary true).board v) =
      driveDecodersEvents (s.withSecondary false).board v := rfl

/-- Of a byte fed to one decoder, what is left is what the board without the secondary feeds it (43_adpcm_feed.md
R162). -/
theorem withoutSecondary_feedDecoder (s : State) (v : Byte) (d : Decoder) :
    withoutSecondary (feedDecoder (s.withSecondary true).board v d) =
      feedDecoder (s.withSecondary false).board v d := by
  cases d <;> rfl

/-- The same for a byte fed to any decoders in any order. -/
theorem withoutSecondary_feedDecoders (s : State) (v : Byte) (ds : List Decoder) :
    withoutSecondary (feedDecoders (s.withSecondary true).board v ds) =
      feedDecoders (s.withSecondary false).board v ds := by
  induction ds with
  | nil => rfl
  | cons d ds ih =>
    calc withoutSecondary (feedDecoders (s.withSecondary true).board v (d :: ds))
      _ = withoutSecondary (feedDecoder (s.withSecondary true).board v d) ++
            withoutSecondary (feedDecoders (s.withSecondary true).board v ds) := List.filter_append ..
      _ = feedDecoders (s.withSecondary false).board v (d :: ds) := by
        rw [withoutSecondary_feedDecoder, ih]; rfl

/-! ### Each operation without the secondary -/

/-- The operation `i`, which leaves `t` with the secondary, completes from `s` without it, with the events less those
addressed to decoder 2, the same byte and the same record but for decoder 2's registers, which only a reset changes. -/
def LosesOnlySecondaryPart (s : State) (i : Instr) (t : State) : Prop :=
  ∃ u : State, exec i (s.withSecondary false) = .next u ∧
    u.out = withoutSecondary t.out ∧ u.result = t.result ∧
    u.regs = { t.regs with decoder2 := u.regs.decoder2 } ∧
    (i ≠ .rst → u.regs.decoder2 = s.regs.decoder2)

/-- For an operation that leaves the same record and byte on both boards and does not drive decoder 2, it is enough to
compare the events. -/
theorem losesOnlySecondaryPart_of_sameRegs {s : State} {i : Instr} {r : Registers} {e₁ e₂ : List Event}
    {res : Option Byte} (hexec : exec i (s.withSecondary false) = .next ((s.withSecondary false).after r e₂ res))
    (hevs : withoutSecondary e₁ = e₂) (hdec : r.decoder2 = s.regs.decoder2) :
    LosesOnlySecondaryPart s i ((s.withSecondary true).after r e₁ res) :=
  ⟨_, hexec, hevs.symm, rfl, rfl, fun _ => hdec⟩

/-- A `port2` write leaves decoder 2's registers as they are. -/
theorem commitAccess_decoder2 (b : Board) (n : Nat) (r : Registers) (v : Byte) :
    (commitAccess b n r v).1.decoder2 = r.decoder2 := by
  rw [commitAccess_regs]

/-- Without the secondary every operation loses only the part addressed to decoder 2. -/
theorem exec_losesOnlySecondaryPart {i : Instr} {s t : State} (h : exec i (s.withSecondary true) = .next t) :
    LosesOnlySecondaryPart s i t := by
  refine exec_cases (P := LosesOnlySecondaryPart s) h
    (wp1 := fun v => ?wp1) (wp2 := fun v => ?wp2) (rp1 := ?rp1) (rp2 := ?rp2) (smp := ?smp) (pbw := fun v => ?pbw)
    (paw := fun a => ?paw) (adwa := fun off v wired => ?adwa) (adwb := fun off v wired => ?adwb)
    (request := fun c hc => ?request) (store := fun c hc => ?store) (ack := fun v => ?ack) (rcl := ?rcl) (rst := ?rst)
  case wp1 => exact losesOnlySecondaryPart_of_sameRegs (exec_wp1 v _) rfl rfl
  case wp2 =>
    exact losesOnlySecondaryPart_of_sameRegs (exec_wp2 v _) (withoutSecondary_commitAccess ..)
      (commitAccess_decoder2 ..)
  case rp1 => exact losesOnlySecondaryPart_of_sameRegs (exec_rp1 _) (withoutSecondary_readPort1Value ..) rfl
  case rp2 => exact losesOnlySecondaryPart_of_sameRegs (exec_rp2 _) rfl rfl
  case smp => exact losesOnlySecondaryPart_of_sameRegs (exec_smp _) (withoutSecondary_smp s) rfl
  case pbw =>
    exact ⟨_, exec_pbw v _, (withoutSecondary_driveDecodersEvents s v).symm, rfl, rfl, fun _ => rfl⟩
  case paw => exact losesOnlySecondaryPart_of_sameRegs (exec_paw a _) (withoutSecondary_lineEvents ..) rfl
  case adwa =>
    exact losesOnlySecondaryPart_of_sameRegs (exec_adwa_wired (s := s.withSecondary false) wired off v)
      (withoutSecondary_feedDecoders ..) rfl
  case adwb =>
    exact losesOnlySecondaryPart_of_sameRegs (exec_adwb_wired (s := s.withSecondary false) wired off v)
      (withoutSecondary_feedDecoders ..) rfl
  case request => exact losesOnlySecondaryPart_of_sameRegs (exec_cmd_request hc _) rfl rfl
  case store => exact losesOnlySecondaryPart_of_sameRegs (exec_cmd_store hc _) rfl rfl
  case ack => exact losesOnlySecondaryPart_of_sameRegs (exec_ack v _) rfl rfl
  case rcl => exact losesOnlySecondaryPart_of_sameRegs (exec_rcl _) rfl rfl
  case rst => exact ⟨_, exec_rst _, rfl, rfl, rfl, fun notRst => absurd rfl notRst⟩

/-- Settles O49: `LosesOnlySecondaryPart` of every operation, in the obligation's own words. -/
theorem absentSecondaryIsANoOp : Obligations.AbsentSecondaryIsANoOp :=
  fun _ _ _ h => exec_losesOnlySecondaryPart h

end Sys2Proof.Machine

/-! PROOFS. The statements of 10_state.md: a write of `port2` without an edge (R23), the one writer and the one reader
of `port1` (R21), and the command latch over a run (R29). -/

namespace Sys2Proof.Machine

/-! ### A write of `port2` without an edge (10_state.md R23) -/

/-- There is no edge exactly when bit 0 makes no 1-to-0 transition (30_encoding.md R77). -/
theorem fall_eq_false_iff {prev new : Byte} :
    fall prev new = false ↔ ¬(prev.getLsbD 0 = true ∧ new.getLsbD 0 = false) := by
  rw [← fall_iff, Bool.not_eq_true]

/-- Without an edge nothing is committed, so the store of `port2` is the whole operation. -/
theorem exec_wp2_noEdge {v : Byte} {s : State} (h : fall s.regs.port2 v = false) :
    exec (.wp2 v) s = .next (s.after { s.regs with port2 := v } [] none) := by
  rw [exec_wp2, commitAccess_noEdge h]

/-- Settles O2: bit 0 makes no 1-to-0 transition, so there is no edge. -/
theorem writePort2WithoutEdgeOnlyStores : Obligations.WritePort2WithoutEdgeOnlyStores :=
  fun _ _ noFall => exec_wp2_noEdge (fall_eq_false_iff.mpr noFall)

/-! ### The writers of `port1` (10_state.md R21) -/

/-- An edge presents `port1` to the PSGs and leaves it as it is. -/
theorem commitAccess_port1 (b : Board) (n : Nat) (r : Registers) (v : Byte) :
    (commitAccess b n r v).1.port1 = r.port1 := by
  rw [commitAccess_regs]

/-- An operation other than writePort1 and reset leaves `port1` as it is. -/
theorem exec_port1_of_not_writer {i : Instr} {s t : State} (h : exec i s = .next t)
    (notWp1 : ∀ v : Byte, i ≠ .wp1 v) (notRst : i ≠ .rst) : t.regs.port1 = s.regs.port1 := by
  refine exec_cases (P := fun i t => (∀ v : Byte, i ≠ .wp1 v) → i ≠ .rst → t.regs.port1 = s.regs.port1) h
    (wp1 := fun v notWp1 _ => absurd rfl (notWp1 v)) (rst := fun _ notRst => absurd rfl notRst)
    (wp2 := fun v _ _ => commitAccess_port1 ..)
    (rp1 := ?_) (rp2 := ?_) (smp := ?_) (pbw := ?_) (paw := ?_) (adwa := ?_) (adwb := ?_) (request := ?_)
    (store := ?_) (ack := ?_) (rcl := ?_) notWp1 notRst <;> intros <;> rfl

/-! ### The reader of `port1` (10_state.md R21) -/

/-- The state with another byte in `port1`. What reads no `port1` (the read of port 1, the drive of the decoders) is
the same term for both bytes, so the proofs below pass from one state to the other there by definition. -/
def State.withPort1 (s : State) (p : Byte) : State := { s with regs := { s.regs with port1 := p } }

/-- The operation `i`, which leaves `t` from `s`, completes with `p` in `port1` as well, with the same events, the same
byte and the same record but for `port1` itself. -/
def IgnoresPort1 (s : State) (p : Byte) (i : Instr) (t : State) : Prop :=
  ∃ u : State, exec i (s.withPort1 p) = .next u ∧
    u.out = t.out ∧ u.result = t.result ∧ u.regs = { t.regs with port1 := u.regs.port1 }

/-- It is enough that the operation leaves the same outputs and, but for some byte `q` in `port1`, the same record. -/
theorem ignoresPort1_of_exec {s : State} {p : Byte} {i : Instr} {r : Registers} {evs : List Event}
    {res : Option Byte} (q : Byte)
    (h : exec i (s.withPort1 p) = .next ((s.withPort1 p).after { r with port1 := q } evs res)) :
    IgnoresPort1 s p i (s.after r evs res) :=
  ⟨_, h, rfl, rfl, rfl⟩

/-- Every operation but a writePort2 that makes an edge ignores `port1`: it leaves the byte it found there, except that
writePort1 and reset leave their own. -/
theorem exec_ignoresPort1 {i : Instr} {s t : State} (p : Byte) (h : exec i s = .next t)
    (noEdge : ∀ v : Byte, i = .wp2 v → fall s.regs.port2 v = false) : IgnoresPort1 s p i t := by
  refine exec_cases h
    (P := fun i t => (∀ v : Byte, i = .wp2 v → fall s.regs.port2 v = false) → IgnoresPort1 s p i t)
    (wp1 := fun v _ => ?wp1) (wp2 := fun v noEdge => ?wp2) (rp1 := fun _ => ?rp1) (rp2 := fun _ => ?rp2)
    (smp := fun _ => ?smp) (pbw := fun b _ => ?pbw) (paw := fun a _ => ?paw) (adwa := fun off v wired _ => ?adwa)
    (adwb := fun off v wired _ => ?adwb) (request := fun c hc _ => ?request) (store := fun c hc _ => ?store)
    (ack := fun v _ => ?ack) (rcl := fun _ => ?rcl) (rst := fun _ => ?rst) noEdge
  case wp1 => exact ignoresPort1_of_exec v (exec_wp1 v _)
  case wp2 =>
    have noFall : fall s.regs.port2 v = false := noEdge v rfl
    rw [commitAccess_noEdge noFall]
    exact ignoresPort1_of_exec p (exec_wp2_noEdge (s := s.withPort1 p) noFall)
  case rp1 => exact ignoresPort1_of_exec p (exec_rp1 _)
  case rp2 => exact ignoresPort1_of_exec p (exec_rp2 _)
  case smp => exact ignoresPort1_of_exec p (exec_smp _)
  case pbw => exact ignoresPort1_of_exec p (exec_pbw b _)
  case paw => exact ignoresPort1_of_exec p (exec_paw a _)
  case adwa => exact ignoresPort1_of_exec p (exec_adwa_wired (s := s.withPort1 p) wired off v)
  case adwb => exact ignoresPort1_of_exec p (exec_adwb_wired (s := s.withPort1 p) wired off v)
  case request => exact ignoresPort1_of_exec p (exec_cmd_request hc _)
  case store => exact ignoresPort1_of_exec p (exec_cmd_store hc _)
  case ack => exact ignoresPort1_of_exec p (exec_ack v _)
  case rcl => exact ignoresPort1_of_exec p (exec_rcl _)
  case rst => exact ignoresPort1_of_exec _ (exec_rst _)

/-- Settles O10: an operation that changes `port1` is one of its two writers, and `IgnoresPort1` says the second clause
in the obligation's own words. -/
theorem port1WrittenByWp1AndSeenByEdgesOnly : Obligations.Port1WrittenByWp1AndSeenByEdgesOnly := by
  refine ⟨fun i s t h changed => ?_, fun i p s t noEdge h => exec_ignoresPort1 p h noEdge⟩
  by_contra notWriter
  obtain ⟨notWp1, notRst⟩ := not_or.mp notWriter
  exact changed (exec_port1_of_not_writer h (not_exists.mp notWp1) notRst)

/-! ### The command latch over a run (10_state.md R29) -/

/-- The command a run leaves pending is the one its first operation leaves, carried through the rest. -/
theorem lastCommand_cons (a : Command) (i : Instr) (is : List Instr) :
    lastCommand a (i :: is) = lastCommand (lastCommand a [i]) is := by
  cases i <;> rfl

/-- A bit-7 command leaves the pending command (44_command_latch.md R171). -/
theorem lastCommand_request {c : Byte} (h : cmdInt c = true) (a : Command) : lastCommand a [.cmd c] = a :=
  if_pos h

/-- A command with bit 7 clear takes the place of the pending one (44_command_latch.md R170). -/
theorem lastCommand_store {c : Byte} (h : cmdInt c = false) (a : Command) : lastCommand a [.cmd c] = cmdVal c :=
  if_neg (Bool.eq_false_iff.mp h)

/-- A `port2` write leaves the pending command as it is. -/
theorem commitAccess_cmd (b : Board) (n : Nat) (r : Registers) (v : Byte) :
    (commitAccess b n r v).1.cmd = r.cmd := by
  rw [commitAccess_regs]

/-- But for reset, an operation leaves the latch at the command `lastCommand` says; RCL among them does not clear it
(decision D14). -/
theorem exec_cmd_eq_lastCommand {i : Instr} {s t : State} (h : exec i s = .next t) (notRst : i ≠ .rst) :
    t.regs.cmd = lastCommand s.regs.cmd [i] := by
  refine exec_cases (P := fun i t => i ≠ .rst → t.regs.cmd = lastCommand s.regs.cmd [i]) h
    (wp2 := fun v _ => commitAccess_cmd ..) (request := fun c hc _ => (lastCommand_request hc _).symm)
    (store := fun c hc _ => (lastCommand_store hc _).symm) (rst := fun notRst => absurd rfl notRst)
    (wp1 := ?_) (rp1 := ?_) (rp2 := ?_) (smp := ?_) (pbw := ?_) (paw := ?_) (adwa := ?_) (adwb := ?_)
    (ack := ?_) (rcl := ?_) notRst <;> intros <;> rfl

/-- A run without reset leaves the latch at the last command stored in it, or at the one before it. -/
theorem runOps_cmd_eq_lastCommand {is : List Instr} {s u : State} {evs : List Event}
    (h : runOps is s = some (u, evs)) (noRst : Instr.rst ∉ is) : u.regs.cmd = lastCommand s.regs.cmd is := by
  induction is generalizing s evs with
  | nil =>
    simp only [runOps_nil, Option.some.injEq, Prod.mk.injEq] at h
    rw [← h.1]
    rfl
  | cons i is ih =>
    obtain ⟨t, e, ht, hu, -⟩ := runOps_cons_eq_some.mp h
    have notRst : i ≠ .rst := (List.ne_of_not_mem_cons noRst).symm
    rw [ih hu (List.not_mem_of_not_mem_cons noRst), exec_cmd_eq_lastCommand ht notRst, ← lastCommand_cons]

/-- Widening a command puts a 0 before its 7 bits (44_command_latch.md R173). -/
theorem zext8_eq_append (c : Command) : zext8 c = 0#1 ++ c :=
  BitVec.setWidth_eq_append (by decide)

/-- Settles O30: the read returns the latch, which the run leaves at its last command. -/
theorem commandLatchHoldsTheLastCommand : Obligations.CommandLatchHoldsTheLastCommand := by
  intro is s u evs h noRst
  refine ⟨_, exec_rcl u, ?_⟩
  rw [State.after_result, zext8_eq_append, runOps_cmd_eq_lastCommand h noRst]

end Sys2Proof.Machine

/-! PROOFS. The statement of 20_memory.md on runs: they compose in order (R58, R59), and runs of two agents leave the
same record in either order, since each part of the record has one writer (R60). -/

namespace Sys2Proof.Machine

/-! ### What a run does to the record -/

/-- The record an operation that completes leaves. It depends on the board and the record before alone: the free order
of an edge's two accesses, which index 0 stands for here, shows in the events only (40_control_bus_latch.md R103). -/
def recordAfter (b : Board) (r : Registers) : Instr → Registers
  | .wp1 v => { r with port1 := v }
  | .wp2 v => { (commitAccess b 0 r v).1 with port2 := v }
  | .pbw v => driveDecoders b r v
  | .paw a => { r with line := linesOf a }
  | .cmd c => if cmdInt c then { r with irq := true } else { r with cmd := cmdVal c }
  | .ack _ => { r with irq := false }
  | .rst => resetRegisters b
  | .rp1 | .rp2 | .smp | .adwa _ _ | .adwb _ _ | .rcl => r

/-- A bit-7 command raises the request and leaves the rest (44_command_latch.md R171). -/
theorem recordAfter_request {c : Byte} (h : cmdInt c = true) (b : Board) (r : Registers) :
    recordAfter b r (.cmd c) = { r with irq := true } :=
  if_pos h

/-- A command with bit 7 clear is stored, and the rest stays (44_command_latch.md R170). -/
theorem recordAfter_store {c : Byte} (h : cmdInt c = false) (b : Board) (r : Registers) :
    recordAfter b r (.cmd c) = { r with cmd := cmdVal c } :=
  if_neg (Bool.eq_false_iff.mp h)

/-- The free order of an edge's accesses does not show in the record. -/
theorem commitAccess_regs_index (b : Board) (n m : Nat) (r : Registers) (v : Byte) :
    (commitAccess b n r v).1 = (commitAccess b m r v).1 := by
  rw [commitAccess_regs, commitAccess_regs]

/-- `recordAfter` is what each operation of the model does to the record. -/
theorem exec_regs_eq_recordAfter {i : Instr} {s t : State} (h : exec i s = .next t) :
    t.regs = recordAfter s.board s.regs i :=
  exec_cases (P := fun i t => t.regs = recordAfter s.board s.regs i) h
    (wp1 := fun _ => rfl)
    (wp2 := fun v => congrArg (fun r : Registers => { r with port2 := v }) (commitAccess_regs_index ..))
    (rp1 := rfl) (rp2 := rfl) (smp := rfl) (pbw := fun _ => rfl) (paw := fun _ => rfl)
    (adwa := fun _ _ _ => rfl) (adwb := fun _ _ _ => rfl)
    (request := fun _ hc => (recordAfter_request hc ..).symm) (store := fun _ hc => (recordAfter_store hc ..).symm)
    (ack := fun _ => rfl) (rcl := rfl) (rst := rfl)

/-- A run leaves the record its operations make one after the other, each of what the one before left (R58). -/
theorem runOps_regs_eq_foldl {is : List Instr} {s u : State} {evs : List Event} (h : runOps is s = some (u, evs)) :
    u.regs = is.foldl (recordAfter s.board) s.regs := by
  induction is generalizing s evs with
  | nil =>
    simp only [runOps_nil, Option.some.injEq, Prod.mk.injEq] at h
    rw [← h.1, List.foldl_nil]
  | cons i is ih =>
    obtain ⟨t, e, ht, hu, -⟩ := runOps_cons_eq_some.mp h
    rw [ih hu, exec_board ht, exec_regs_eq_recordAfter ht, List.foldl_cons]

/-- A run completes exactly when each of its operations exists on the board: the state it starts from does not
matter. -/
theorem runOps_completes_iff {is : List Instr} {s : State} :
    (∃ (u : State) (evs : List Event), runOps is s = some (u, evs)) ↔ ∀ i ∈ is, i.wellFormed s.board = true := by
  induction is generalizing s with
  | nil => exact ⟨fun _ _ hi => absurd hi List.not_mem_nil, fun _ => ⟨s, [], rfl⟩⟩
  | cons i is ih =>
    rw [List.forall_mem_cons]
    constructor
    · rintro ⟨u, evs, h⟩
      obtain ⟨t, e, ht, hu, -⟩ := runOps_cons_eq_some.mp h
      exact ⟨wellFormed_of_exec_next ht, exec_board ht ▸ ih.mp ⟨u, e, hu⟩⟩
    · rintro ⟨hi, his⟩
      obtain ⟨t, ht⟩ := exec_completes_of_wellFormed hi
      obtain ⟨u, e, hu⟩ := ih.mpr (exec_board ht ▸ his)
      exact ⟨u, _, runOps_cons_eq_some.mpr ⟨t, e, ht, hu, rfl⟩⟩

/-! ### The parts of the record and their writers (20_memory.md R60) -/

/-- The record of 10_state.md R20, cut into the parts that R60 gives a writer each. -/
inductive RecordPart where
  /-- `port1`, `port2` and the select latches. -/
  | busLatch
  /-- `cmd`. -/
  | command
  /-- `irq`. -/
  | request
  /-- The drive registers of both decoders. -/
  | decoders
  /-- The discrete lines. -/
  | lines

/-- The record `r` with the part `p` of the record `q`. -/
def Registers.withPart (r : Registers) (p : RecordPart) (q : Registers) : Registers :=
  match p with
  | .busLatch => { r with port1 := q.port1, port2 := q.port2, psgAddrM := q.psgAddrM, psgAddrL := q.psgAddrL }
  | .command => { r with cmd := q.cmd }
  | .request => { r with irq := q.irq }
  | .decoders => { r with decoder1 := q.decoder1, decoder2 := q.decoder2 }
  | .lines => { r with line := q.line }

/-- Different parts share no field. -/
theorem Registers.withPart_comm {p p' : RecordPart} (distinct : p ≠ p') (r q q' : Registers) :
    (r.withPart p q).withPart p' q' = (r.withPart p' q').withPart p q := by
  cases p <;> cases p' <;> simp [Registers.withPart] at distinct ⊢

/-- A record has its own parts. -/
@[simp] theorem Registers.withPart_self (r : Registers) (p : RecordPart) : r.withPart p r = r := by
  cases p <;> rfl

/-- A change of the record that only the part `p` takes part in: what it makes of `p` is read from `p` alone, and
every other part passes through. -/
def ConfinedTo (p : RecordPart) (f : Registers → Registers) : Prop :=
  ∀ r q : Registers, f (q.withPart p r) = q.withPart p (f r)

/-- A change confined to one part leaves the others. -/
theorem ConfinedTo.frame {p : RecordPart} {f : Registers → Registers} (hf : ConfinedTo p f) (r : Registers) :
    f r = r.withPart p (f r) := by
  simpa using hf r r

/-- A change confined to one part does the same after a change confined to another. -/
theorem ConfinedTo.after {p p' : RecordPart} {f g : Registers → Registers} (hf : ConfinedTo p f)
    (hg : ConfinedTo p' g) (distinct : p ≠ p') (r : Registers) :
    f (g r) = (r.withPart p' (g r)).withPart p (f r) := by
  have sees_r : (r.withPart p' (g r)).withPart p r = g r := by
    rw [← Registers.withPart_comm distinct, Registers.withPart_self, ← hg.frame]
  rw [← hf, sees_r]

/-- Changes confined to two parts commute. -/
theorem ConfinedTo.comm {p p' : RecordPart} {f g : Registers → Registers} (hf : ConfinedTo p f)
    (hg : ConfinedTo p' g) (distinct : p ≠ p') (r : Registers) : f (g r) = g (f r) := by
  rw [hf.after hg distinct, hg.after hf distinct.symm, Registers.withPart_comm distinct]

/-- The part an operation writes; `none` for one that writes no state, and for reset, which writes them all. -/
def writtenPart : Instr → Option RecordPart
  | .wp1 _ | .wp2 _ => some .busLatch
  | .cmd c => some (if cmdInt c then .request else .command)
  | .ack _ => some .request
  | .pbw _ => some .decoders
  | .paw _ => some .lines
  | .rp1 | .rp2 | .smp | .adwa _ _ | .adwb _ _ | .rcl | .rst => none

/-- A bit-7 command writes the request latch (44_command_latch.md R171). -/
theorem writtenPart_request {c : Byte} (h : cmdInt c = true) : writtenPart (.cmd c) = some .request :=
  congrArg some (if_pos h)

/-- A command with bit 7 clear writes the command latch (44_command_latch.md R170). -/
theorem writtenPart_store {c : Byte} (h : cmdInt c = false) : writtenPart (.cmd c) = some .command :=
  congrArg some (if_neg (Bool.eq_false_iff.mp h))

/-- An operation other than reset that has no part leaves the record as it is. -/
theorem recordAfter_of_writtenPart_none {i : Instr} (h : writtenPart i = none) (notRst : i ≠ .rst) (b : Board)
    (r : Registers) : recordAfter b r i = r := by
  cases i with
  | rp1 | rp2 | smp | adwa | adwb | rcl => rfl
  | rst => exact absurd rfl notRst
  | wp1 | wp2 | cmd | ack | pbw | paw => cases h

/-- A `port2` write concerns the bus latch alone: its edge looks at `port1`, `port2` and the operand, and changes
select latches (40_control_bus_latch.md R101 to R105). -/
theorem recordAfter_wp2_confinedTo (b : Board) (v : Byte) : ConfinedTo .busLatch (recordAfter b · (.wp2 v)) := by
  intro r q
  simp only [recordAfter, commitAccess_regs]
  rfl

/-- An operation with a part reads and writes the record there alone. -/
theorem recordAfter_confinedTo {i : Instr} {p : RecordPart} (h : writtenPart i = some p) (b : Board) :
    ConfinedTo p (recordAfter b · i) := by
  cases i with
  | wp1 | ack | pbw | paw =>
    cases h
    exact fun _ _ => rfl
  | wp2 v =>
    cases h
    exact recordAfter_wp2_confinedTo b v
  | cmd c =>
    cases hc : cmdInt c with
    | true =>
      cases (writtenPart_request hc).symm.trans h
      simp only [ConfinedTo, recordAfter_request hc]
      exact fun _ _ => rfl
    | false =>
      cases (writtenPart_store hc).symm.trans h
      simp only [ConfinedTo, recordAfter_store hc]
      exact fun _ _ => rfl
  | rp1 | rp2 | smp | adwa | adwb | rcl | rst => cases h

/-- The writer R60 names for each part. The request latch has none of its own: the main CPU sets it and the
acknowledge writer clears it. -/
def RecordPart.writer (b : Board) : RecordPart → Option Agent
  | .busLatch => some .microcontroller
  | .command => some .mainCpu
  | .request => none
  | .decoders => some (.psg b.portBPsg)
  | .lines => some (.psg b.portAPsg)

/-- What writes the request latch: an acknowledge or a bit-7 command. -/
theorem writtenPart_eq_request_iff {i : Instr} :
    writtenPart i = some .request ↔ (∃ v, i = .ack v) ∨ ∃ c, i = .cmd c ∧ cmdInt c = true := by
  cases i with
  | cmd c => cases hc : cmdInt c <;> simp [writtenPart, hc]
  | _ => simp [writtenPart]

/-- A part other than the request latch is written by its writer only. -/
theorem writer_of_writtenPart {b : Board} {g : Agent} {i : Instr} {p : RecordPart} (invokes : mayInvoke b g i = true)
    (writes : writtenPart i = some p) (notRequest : p ≠ .request) : p.writer b = some g := by
  cases i with
  | wp1 | wp2 | pbw | paw =>
    cases writes
    rw [of_decide_eq_true invokes]
    rfl
  | cmd c =>
    cases hc : cmdInt c with
    | true =>
      cases (writtenPart_request hc).symm.trans writes
      exact absurd rfl notRequest
    | false =>
      cases (writtenPart_store hc).symm.trans writes
      rw [of_decide_eq_true invokes]
      rfl
  | ack =>
    cases writes
    exact absurd rfl notRequest
  | rp1 | rp2 | smp | adwa | adwb | rcl | rst => cases writes

/-! ### Operations of two agents commute on the record -/

/-- Not both an acknowledge and a bit-7 command are among the operations. -/
def RequestUncontended (is : List Instr) : Prop :=
  ∀ v c : Byte, Instr.ack v ∈ is → Instr.cmd c ∈ is → cmdInt c = false

/-- Operations of two agents write two parts, where the request latch is not contended. -/
theorem writtenPart_ne_of_agents_ne {b : Board} {g h : Agent} {x y : Instr} {p p' : RecordPart} {is : List Instr}
    (agents : g ≠ h) (hx : mayInvoke b g x = true) (hy : mayInvoke b h y = true) (uncontended : RequestUncontended is)
    (memX : x ∈ is) (memY : y ∈ is) (writesX : writtenPart x = some p) (writesY : writtenPart y = some p') :
    p ≠ p' := by
  rintro rfl
  by_cases request : p = .request
  case neg =>
    have sameWriter := (writer_of_writtenPart hx writesX request).symm.trans (writer_of_writtenPart hy writesY request)
    exact agents (Option.some.inj sameWriter)
  case pos =>
    subst request
    obtain ⟨v, rfl⟩ | ⟨c, rfl, hc⟩ := writtenPart_eq_request_iff.mp writesX <;>
      obtain ⟨v', rfl⟩ | ⟨c', rfl, hc'⟩ := writtenPart_eq_request_iff.mp writesY
    · exact agents ((of_decide_eq_true hx).trans (of_decide_eq_true hy).symm)
    · exact absurd hc' (Bool.eq_false_iff.mp (uncontended v c' memX memY))
    · exact absurd hc (Bool.eq_false_iff.mp (uncontended v' c memY memX))
    · exact agents ((of_decide_eq_true hx).trans (of_decide_eq_true hy).symm)

/-- Only the host resets (60_exceptions.md R211). -/
theorem ne_rst_of_mayInvoke {b : Board} {g : Agent} {i : Instr} (notHost : g ≠ .host) (h : mayInvoke b g i = true) :
    i ≠ .rst := by
  rintro rfl
  exact notHost (of_decide_eq_true h)

/-- Two agents' operations commute on the record: each keeps to a part of its own, or writes nothing. -/
theorem recordAfter_comm {b : Board} {g h : Agent} {x y : Instr} {is : List Instr} (agents : g ≠ h)
    (gNotHost : g ≠ .host) (hNotHost : h ≠ .host) (hx : mayInvoke b g x = true) (hy : mayInvoke b h y = true)
    (uncontended : RequestUncontended is) (memX : x ∈ is) (memY : y ∈ is) (r : Registers) :
    recordAfter b (recordAfter b r y) x = recordAfter b (recordAfter b r x) y := by
  cases writesX : writtenPart x with
  | none =>
    have keepsX := recordAfter_of_writtenPart_none writesX (ne_rst_of_mayInvoke gNotHost hx) b
    rw [keepsX, keepsX]
  | some p =>
    cases writesY : writtenPart y with
    | none =>
      have keepsY := recordAfter_of_writtenPart_none writesY (ne_rst_of_mayInvoke hNotHost hy) b
      rw [keepsY, keepsY]
    | some p' =>
      have distinct := writtenPart_ne_of_agents_ne agents hx hy uncontended memX memY writesX writesY
      exact (recordAfter_confinedTo writesX b).comm (recordAfter_confinedTo writesY b) distinct r

/-- What commutes with each operation of a list commutes with them all in order. -/
theorem foldl_recordAfter_comm {b : Board} {f : Registers → Registers} {is : List Instr}
    (comm : ∀ i ∈ is, ∀ r, recordAfter b (f r) i = f (recordAfter b r i)) (r : Registers) :
    is.foldl (recordAfter b) (f r) = f (is.foldl (recordAfter b) r) := by
  induction is generalizing r with
  | nil => rfl
  | cons i is ih =>
    obtain ⟨commI, commIs⟩ := List.forall_mem_cons.mp comm
    rw [List.foldl_cons, List.foldl_cons, commI, ih commIs]

/-- Lists of operations that commute one by one commute as a whole. -/
theorem foldl_recordAfter_append_comm {b : Board} {xs ys : List Instr}
    (comm : ∀ x ∈ xs, ∀ y ∈ ys, ∀ r, recordAfter b (recordAfter b r y) x = recordAfter b (recordAfter b r x) y)
    (r : Registers) : (ys ++ xs).foldl (recordAfter b) r = (xs ++ ys).foldl (recordAfter b) r := by
  rw [List.foldl_append, List.foldl_append]
  exact foldl_recordAfter_comm (f := (ys.foldl (recordAfter b) ·))
    (fun x hx r => (foldl_recordAfter_comm (f := (recordAfter b · x)) (fun y hy r => (comm x hx y hy r).symm) r).symm) r

/-- Runs of two agents complete in the other order too, and leave the same record. -/
theorem runOps_swap_of_agents_ne {xs ys : List Instr} {s u : State} {evs : List Event} {g h : Agent}
    (run : runOps (xs ++ ys) s = some (u, evs))
    (agents : g ≠ h) (gNotHost : g ≠ .host) (hNotHost : h ≠ .host)
    (ofG : ∀ x ∈ xs, mayInvoke s.board g x = true) (ofH : ∀ y ∈ ys, mayInvoke s.board h y = true)
    (uncontended : RequestUncontended (xs ++ ys)) :
    ∃ (w : State) (evs' : List Event), runOps (ys ++ xs) s = some (w, evs') ∧ w.regs = u.regs := by
  have completes : ∀ i ∈ xs ++ ys, i.wellFormed s.board = true := runOps_completes_iff.mp ⟨u, evs, run⟩
  obtain ⟨w, evs', swapped⟩ := runOps_completes_iff.mpr fun i hi => completes i (List.perm_append_comm.mem_iff.mp hi)
  refine ⟨w, evs', swapped, ?_⟩
  rw [runOps_regs_eq_foldl swapped, runOps_regs_eq_foldl run]
  exact foldl_recordAfter_append_comm (fun x hx y hy r =>
    recordAfter_comm agents gNotHost hNotHost (ofG x hx) (ofH y hy) uncontended
      (List.mem_append_left ys hx) (List.mem_append_right xs hy) r) s.regs

/-- Settles O55: the runs compose, and the run they make can be swapped. -/
theorem runsCompose : Obligations.RunsCompose := by
  intro xs ys s t u e₁ e₂ first second
  have run := runOps_append first second
  exact ⟨run, fun _ _ => runOps_swap_of_agents_ne run⟩

end Sys2Proof.Machine

/-! PROOFS. The statement of 30_encoding.md on ignored operand bits (R81, decision D24): the bits an operation looks at fix
its whole outcome. -/

namespace Sys2Proof.Machine

/-! ### Bytes that agree in their low bits -/

/-- Bytes with equal low `k` bits agree in each of them. -/
theorem getLsbD_eq_of_low_eq {k i : Nat} {x y : Byte} (low : x.extractLsb' 0 k = y.extractLsb' 0 k) (hi : i < k) :
    x.getLsbD i = y.getLsbD i := by
  simpa [BitVec.getLsbD_extractLsb', hi] using congrArg (fun bits => bits.getLsbD i) low

/-- The mode field lies in bits 4:0 of a port-B byte (30_encoding.md R71). -/
theorem modeField_eq_of_low_eq {x y : Byte} (low : x.extractLsb' 0 5 = y.extractLsb' 0 5) :
    modeField x = modeField y := by
  refine BitVec.eq_of_getLsbD_eq fun i hi => ?_
  have bit : x.getLsbD (2 + i) = y.getLsbD (2 + i) := getLsbD_eq_of_low_eq low (by omega)
  simp [modeField, BitVec.getLsbD_extractLsb', bit]

/-- Both decoder resets lie in bits 4:0 of a port-B byte (30_encoding.md R71). -/
theorem rst1_eq_and_rst2_eq_of_low_eq {x y : Byte} (low : x.extractLsb' 0 5 = y.extractLsb' 0 5) :
    rst1 x = rst1 y ∧ rst2 x = rst2 y :=
  ⟨getLsbD_eq_of_low_eq low (by decide), getLsbD_eq_of_low_eq low (by decide)⟩

/-- The bit of every line lies in bits 3:0 of a port-A byte (30_encoding.md R72). -/
theorem lineBit_eq_of_low_eq {x y : Byte} (low : x.extractLsb' 0 4 = y.extractLsb' 0 4) : lineBit x = lineBit y := by
  funext i
  cases i <;> exact getLsbD_eq_of_low_eq low (by decide)

/-! ### The operations on such bytes -/

/-- A port-B byte acts through its mode field and its two resets alone (42_psg_port_handlers.md R140). -/
theorem exec_pbw_congr {x y : Byte} (mode : modeField x = modeField y) (reset1 : rst1 x = rst1 y)
    (reset2 : rst2 x = rst2 y) (s : State) : exec (.pbw x) s = exec (.pbw y) s := by
  have primary : primaryDrive x = primaryDrive y := by rw [primaryDrive, mode, reset1, primaryDrive]
  have secondary : secondaryDrive s.board x = secondaryDrive s.board y := by
    rw [secondaryDrive, mode, reset2, secondaryDrive]
  have record : driveDecoders s.board s.regs x = driveDecoders s.board s.regs y := by
    rw [driveDecoders, primary, secondary, driveDecoders]
  have events : driveDecodersEvents s.board x = driveDecodersEvents s.board y := by
    rw [driveDecodersEvents, mode, reset1, reset2, driveDecodersEvents]
  rw [exec_pbw, exec_pbw, record, events]

/-- A port-A byte acts through the bits of the four lines alone (42_psg_port_handlers.md R144). -/
theorem exec_paw_congr {x y : Byte} (bits : lineBit x = lineBit y) (s : State) :
    exec (.paw x) s = exec (.paw y) s := by
  have record : linesOf x = linesOf y := by rw [linesOf, bits, linesOf]
  have event (i : Line) : lineEvent s.board x i = lineEvent s.board y i := by rw [lineEvent, bits, lineEvent]
  have events : lineEvents s.board x = lineEvents s.board y := by simp only [lineEvents, event]
  rw [exec_paw, exec_paw, record, events]

/-- All commands with bit 7 set do the same (44_command_latch.md R171). -/
theorem exec_cmd_request_congr {x y : Byte} (hx : cmdInt x = true) (hy : cmdInt y = true) (s : State) :
    exec (.cmd x) s = exec (.cmd y) s :=
  (exec_cmd_request hx s).trans (exec_cmd_request hy s).symm

/-- Settles O42: each operand acts through its named bits alone, and those agree. An acknowledge does the same whatever
its byte (decision D16). -/
theorem ignoredOperandBitsHaveNoEffect : Obligations.IgnoredOperandBitsHaveNoEffect := by
  intro x y s
  refine ⟨fun low => ?portB, fun low => ?portA, fun ⟨hx, hy⟩ => exec_cmd_request_congr hx hy s, ?ack⟩
  case portB =>
    obtain ⟨reset1, reset2⟩ := rst1_eq_and_rst2_eq_of_low_eq low
    exact exec_pbw_congr (modeField_eq_of_low_eq low) reset1 reset2 s
  case portA => exact exec_paw_congr (lineBit_eq_of_low_eq low) s
  case ack => rw [exec_ack, exec_ack]

end Sys2Proof.Machine

/-! PROOFS. The statements of 40_control_bus_latch.md: writePort1 (R100), writePort2 as a whole under both decode
sources (R101, R102), and the register that a data write reaches (R105). -/

namespace Sys2Proof.Machine

/-! ### The words of the two port writes (30_encoding.md R79) -/

/-- A word with OFF = 0 is the byte of its OP, followed by its data. -/
theorem packWord_zero_off (op : BitVec 4) (data : Byte) : packWord op 0 data = (op ++ 0#4) ++ data := by
  have opByte : (op ++ 0#2) ++ 0#2 = op ++ 0#4 := BitVec.append_assoc
  exact congrArg (· ++ data) opByte

/-- The word of an assigned OP that is read with a byte operand is that operation on its data: it has no reserved bit
set, and OFF = 0 (30_encoding.md R78, R80). -/
theorem decode_byteOperand_word {op : BitVec 4} {k : Byte → Instr} (low : 1 ≤ op.toNat) (high : op.toNat ≤ 0xD)
    (reads : ∀ w : Word, opField w = op → decodeOp w = decodeByteOperand w k) (v : Byte) :
    decode ((op ++ 0#4) ++ v) = .ok (k v) :=
  calc decode ((op ++ 0#4) ++ v)
    _ = decode (packWord op 0 v) := by rw [packWord_zero_off]
    _ = decodeOp (packWord op 0 v) := by simp [decode, opAssigned, low, high]
    _ = decodeByteOperand (packWord op 0 v) k := reads _ (Laws.opField_packWord op 0 v)
    _ = .ok (k v) := by simp [decodeByteOperand]

/-- The word 0x10vv is WP1 v. -/
theorem decode_wp1_word (v : Byte) : decode (0x10#8 ++ v) = .ok (.wp1 v) :=
  decode_byteOperand_word (op := 0x1) (by decide) (by decide) (fun w h => by simp [decodeOp, h]) v

/-- The word 0x20vv is WP2 v. -/
theorem decode_wp2_word (v : Byte) : decode (0x20#8 ++ v) = .ok (.wp2 v) :=
  decode_byteOperand_word (op := 0x2) (by decide) (by decide) (fun w h => by simp [decodeOp, h]) v

/-- Settles O1: the word is WP1's, and the operation is its one store. -/
theorem writePort1StoresItsOperandOnly : Obligations.WritePort1StoresItsOperandOnly :=
  fun v s => ⟨decode_wp1_word v, exec_wp1 v s⟩

/-! ### The events of an edge and the latches it sets (40_control_bus_latch.md R101) -/

/-- One event for each selected PSG, written out for the two PSGs. -/
theorem map_selectedPsgs {α : Type} (b : Board) (d : Byte) (f : Psg → α) :
    (selectedPsgs b d).map f = (if sel b d .m then [f .m] else []) ++ (if sel b d .l then [f .l] else []) := by
  rw [selectedPsgs, List.map_append]
  congr 1 <;> split <;> rfl

/-- Up to the order R103 leaves free, a write of `port2` emits the event of each selected PSG on an edge, and nothing
without one. -/
theorem commitAccess_events_perm (b : Board) (n : Nat) (r : Registers) (v : Byte) :
    (commitAccess b n r v).2.Perm
      (if fall r.port2 v then
        (selectedPsgs b (decodeSource b r.port2 v)).map (accessEvent (decodeSource b r.port2 v) r)
      else []) := by
  rw [commitAccess_events]
  split
  case isTrue => exact (inFreeOrder_perm n _).map _
  case isFalse => exact .refl _

/-- The event of a selected PSG is among those of an edge. -/
theorem accessEvent_mem_commitAccess {b : Board} {r : Registers} {v : Byte} {t : Psg} (n : Nat)
    (edge : fall r.port2 v = true) (selected : sel b (decodeSource b r.port2 v) t = true) :
    accessEvent (decodeSource b r.port2 v) r t ∈ (commitAccess b n r v).2 := by
  rw [(commitAccess_events_perm b n r v).mem_iff, if_pos edge]
  exact List.mem_map_of_mem (mem_selectedPsgs.mpr selected)

/-- An edge in the register-select phase sets the latches of the selected PSGs to `port1`; every other latch keeps its
byte (40_control_bus_latch.md R104). -/
theorem commitAccess_psgAddr (b : Board) (n : Nat) (r : Registers) (v : Byte) (t : Psg) :
    (commitAccess b n r v).1.psgAddr t =
      if fall r.port2 v = true ∧ ph (decodeSource b r.port2 v) = true ∧ sel b (decodeSource b r.port2 v) t = true then
        some r.port1
      else r.psgAddr t := by
  rw [commitAccess_regs]
  cases t <;> rfl

/-- The latch after a whole writePort2: storing `port2` changes none. -/
theorem storePort2_psgAddr (r : Registers) (v : Byte) (t : Psg) :
    ({ r with port2 := v } : Registers).psgAddr t = r.psgAddr t := by
  cases t <;> rfl

/-- The two latches a writePort2 leaves, in the bits of R70: the condition of an edge and of the register-select phase,
with the decode source `d` of R102. -/
theorem commitAccess_regs_bits {b : Board} {r : Registers} {v d : Byte} (source : d = decodeSource b r.port2 v)
    (n : Nat) :
    (commitAccess b n r v).1 =
      { r with
        psgAddrM :=
          if r.port2.getLsbD 0 = true ∧ v.getLsbD 0 = false ∧ d.getLsbD 2 = true ∧ d.getLsbD b.selBitM = true then
            some r.port1
          else r.psgAddrM
        psgAddrL :=
          if r.port2.getLsbD 0 = true ∧ v.getLsbD 0 = false ∧ d.getLsbD 2 = true ∧ d.getLsbD b.selBitL = true then
            some r.port1
          else r.psgAddrL } := by
  simp only [commitAccess_regs, fall_iff, and_assoc, ← source, ph, sel]

/-- The events a writePort2 emits, up to their order, in the bits of R70. -/
theorem commitAccess_events_perm_bits {b : Board} {r : Registers} {v d : Byte}
    (source : d = decodeSource b r.port2 v) (n : Nat) :
    (commitAccess b n r v).2.Perm
      (if r.port2.getLsbD 0 = true ∧ v.getLsbD 0 = false then
        (if d.getLsbD b.selBitM then
          [if d.getLsbD 2 then Event.psgAddr .m r.port1 else Event.psgData .m r.psgAddrM r.port1] else []) ++
        (if d.getLsbD b.selBitL then
          [if d.getLsbD 2 then Event.psgAddr .l r.port1 else Event.psgData .l r.psgAddrL r.port1] else [])
      else []) := by
  have perm := commitAccess_events_perm b n r v
  simp only [fall_iff, ← source, map_selectedPsgs] at perm
  exact perm

/-- Settles O3: the decode source is R102's, and the record and the events are those of the edge. -/
theorem writePort2CommitsOnFallingEdge : Obligations.WritePort2CommitsOnFallingEdge := by
  intro v d s hd
  have source : d = decodeSource s.board s.regs.port2 v := hd.trans (decodeSource_eq ..).symm
  refine ⟨decode_wp2_word v, _, ?_, commitAccess_events_perm_bits source s.opIndex⟩
  rw [exec_wp2, commitAccess_regs_bits source]

/-! ### The register a data write reaches (40_control_bus_latch.md R105) -/

/-- A select edge on PSG `t` leaves `port1` in its latch (40_control_bus_latch.md R104). -/
theorem exec_wp2_selectEdge {v : Byte} {s : State} {t : Psg} (edge : fall s.regs.port2 v = true)
    (phase : ph (decodeSource s.board s.regs.port2 v) = true)
    (selected : sel s.board (decodeSource s.board s.regs.port2 v) t = true) :
    ∃ u : State, exec (.wp2 v) s = .next u ∧ u.regs.psgAddr t = some s.regs.port1 := by
  refine ⟨_, exec_wp2 v s, ?_⟩
  rw [State.after_regs, storePort2_psgAddr, commitAccess_psgAddr, if_pos ⟨edge, phase, selected⟩]

/-- A data edge on PSG `t` writes `port1` to the register its latch names, and leaves every latch. -/
theorem exec_wp2_dataEdge {v : Byte} {s : State} {t : Psg} (edge : fall s.regs.port2 v = true)
    (phase : ph (decodeSource s.board s.regs.port2 v) = false)
    (selected : sel s.board (decodeSource s.board s.regs.port2 v) t = true) :
    ∃ u : State, exec (.wp2 v) s = .next u ∧ .psgData t (s.regs.psgAddr t) s.regs.port1 ∈ u.out ∧
      ∀ p : Psg, u.regs.psgAddr p = s.regs.psgAddr p := by
  refine ⟨_, exec_wp2 v s, ?event, fun p => ?latch⟩
  case event =>
    have isData : accessEvent (decodeSource s.board s.regs.port2 v) s.regs t =
        .psgData t (s.regs.psgAddr t) s.regs.port1 := by simp [accessEvent, phase]
    exact isData ▸ accessEvent_mem_commitAccess s.opIndex edge selected
  case latch =>
    rw [State.after_regs, storePort2_psgAddr, commitAccess_psgAddr]
    simp [phase]

/-- A write with the strobe high makes no edge, whatever the level before (30_encoding.md R77): it leaves `port1` and
the latches. -/
theorem exec_wp2_strobeHigh {v : Byte} (high : stb v = true) (s : State) :
    ∃ u : State, exec (.wp2 v) s = .next u ∧ u.regs.port2 = v ∧ u.regs.port1 = s.regs.port1 ∧
      ∀ p : Psg, u.regs.psgAddr p = s.regs.psgAddr p := by
  have noEdge : fall s.regs.port2 v = false := by simp [fall, high]
  exact ⟨_, exec_wp2_noEdge noEdge, rfl, rfl, storePort2_psgAddr s.regs v⟩

/-- A select edge on PSG `t`, a strobe-high write and a data edge on `t`: `port1` does not change meanwhile, and the
data write reaches the register just selected. -/
theorem runOps_select_strobe_data {t : Psg} {v₁ v₂ v₃ : Byte} {s : State}
    (edge₁ : fall s.regs.port2 v₁ = true)
    (phase₁ : ph (decodeSource s.board s.regs.port2 v₁) = true)
    (selected₁ : sel s.board (decodeSource s.board s.regs.port2 v₁) t = true)
    (high₂ : stb v₂ = true) (low₃ : stb v₃ = false)
    (phase₃ : ph (decodeSource s.board v₂ v₃) = false)
    (selected₃ : sel s.board (decodeSource s.board v₂ v₃) t = true) :
    ∃ (u : State) (evs : List Event), runOps [.wp2 v₁, .wp2 v₂, .wp2 v₃] s = some (u, evs) ∧
      .psgData t (some s.regs.port1) s.regs.port1 ∈ evs ∧ u.regs.psgAddr t = some s.regs.port1 := by
  obtain ⟨a, ha, latchA⟩ := exec_wp2_selectEdge edge₁ phase₁ selected₁
  obtain ⟨b, hb, rfl, port1B, latchesB⟩ := exec_wp2_strobeHigh high₂ a
  have port1 : b.regs.port1 = s.regs.port1 := port1B.trans (exec_port1_of_not_writer ha nofun nofun)
  have latch : b.regs.psgAddr t = some s.regs.port1 := (latchesB t).trans latchA
  have board : b.board = s.board := (exec_board hb).trans (exec_board ha)
  have edge₃ : fall b.regs.port2 v₃ = true := by simp [fall, high₂, low₃]
  obtain ⟨u, hu, event, latchesU⟩ := exec_wp2_dataEdge edge₃ (board ▸ phase₃) (board ▸ selected₃)
  have run₃ := runOps_cons_eq_some.mpr ⟨u, [], hu, runOps_nil u, rfl⟩
  have run₂ := runOps_cons_eq_some.mpr ⟨b, _, hb, run₃, rfl⟩
  have run₁ := runOps_cons_eq_some.mpr ⟨a, _, ha, run₂, rfl⟩
  rw [latch, port1] at event
  exact ⟨u, _, run₁, by simp [event], (latchesU t).trans latch⟩

/-- Settles O5: one data edge, and a data edge after the select that it goes with. -/
theorem dataWriteReachesTheSelectedRegister : Obligations.DataWriteReachesTheSelectedRegister :=
  ⟨fun _ _ _ => exec_wp2_dataEdge, fun _ _ _ _ _ => runOps_select_strobe_data⟩

end Sys2Proof.Machine

/-! PROOFS. The statements of 41_decoder_sync.md: the pulses of one sampleConsumed (R130, R131), and of every run, one
group for each sampleConsumed and no other (R133). -/

namespace Sys2Proof.Machine

/-! ### The pulses of one sampleConsumed (41_decoder_sync.md R130, R131) -/

/-- What the decoder synchronizer emits for one sample: the NMI pulse, then the secondary's clock pulse. -/
def samplePulses (b : Board) : List Event := nmiPulse ++ secondaryClockPulse b

/-- The group with the presence test outermost, as R130 and R131 list its events. -/
theorem samplePulses_eq_ite (b : Board) :
    samplePulses b = if b.secondaryPresent then [.nmi, .secClk true, .secClk false] else [.nmi] := by
  unfold samplePulses secondaryClockPulse
  split <;> rfl

/-- One NMI, whatever the board. -/
theorem count_nmi_samplePulses (b : Board) : (samplePulses b).count .nmi = 1 := by
  rw [samplePulses_eq_ite]
  split <;> rfl

/-- One clock edge to each level, if and only if the secondary is present. -/
theorem count_secClk_samplePulses (b : Board) (level : Bool) :
    (samplePulses b).count (.secClk level) = if b.secondaryPresent then 1 else 0 := by
  rw [samplePulses_eq_ite]
  split
  case isTrue => cases level <;> rfl
  case isFalse => rfl

/-- The word 0x5000 is SMP (30_encoding.md R79). -/
theorem decode_smp_word : decode 0x5000 = .ok .smp := rfl

/-- Settles O15: the group of one sample, written out for both boards. -/
theorem sampleConsumedPulsesNmiThenClock : Obligations.SampleConsumedPulsesNmiThenClock :=
  ⟨decode_smp_word, fun s => samplePulses_eq_ite s.board ▸ exec_smp s⟩

/-! ### The pulses among the events of an operation -/

/-- An event of the decoder synchronizer: an NMI pulse or an edge of the secondary's clock. -/
def isPulse : Event → Bool
  | .nmi | .secClk _ => true
  | _ => false

/-- The events of the decoder synchronizer, in the order they were emitted. -/
def pulses (evs : List Event) : List Event := evs.filter isPulse

theorem pulses_append (e₁ e₂ : List Event) : pulses (e₁ ++ e₂) = pulses e₁ ++ pulses e₂ := List.filter_append ..

theorem pulses_eq_nil {evs : List Event} (h : ∀ e ∈ evs, isPulse e = false) : pulses evs = [] :=
  List.filter_eq_nil_iff.mpr fun e he => by simp [h e he]

/-- A pulse occurs as often among the pulses as among all the events. -/
theorem count_pulses {e : Event} (h : isPulse e = true) (evs : List Event) : (pulses evs).count e = evs.count e :=
  List.count_filter h

/-- The group of one sample is pulses only. -/
theorem pulses_samplePulses (b : Board) : pulses (samplePulses b) = samplePulses b := by
  rw [samplePulses_eq_ite]
  split <;> rfl

/-- An edge on `port2` accesses PSGs only (40_control_bus_latch.md R101). -/
theorem pulses_commitAccess (b : Board) (n : Nat) (r : Registers) (v : Byte) :
    pulses (commitAccess b n r v).2 = [] := by
  refine pulses_eq_nil fun e he => ?_
  rw [commitAccess_events] at he
  split at he
  case isTrue =>
    obtain ⟨t, -, rfl⟩ := List.mem_map.mp he
    unfold accessEvent
    split <;> rfl
  case isFalse => cases he

/-- A read of port 1 accesses PSGs only (40_control_bus_latch.md R106). -/
theorem pulses_readPort1Value (b : Board) (n : Nat) (r : Registers) : pulses (readPort1Value b n r).2 = [] := by
  rcases readPort1Value_cases b n r with ⟨-, h⟩ | ⟨-, t, -, h⟩ | ⟨-, -, h⟩ <;> rw [h] <;> rfl

/-- A port-B byte drives the modes and the resets of the decoders only (42_psg_port_handlers.md R140). -/
theorem pulses_driveDecodersEvents (b : Board) (v : Byte) : pulses (driveDecodersEvents b v) = [] := by
  unfold driveDecodersEvents
  split <;> rfl

/-- A port-A byte drives the discrete lines only (42_psg_port_handlers.md R144). -/
theorem pulses_lineEvents (b : Board) (a : Byte) : pulses (lineEvents b a) = [] := by
  have one (i : Line) : pulses (lineEvent b a i) = [] := by
    unfold lineEvent
    split <;> rfl
  simp only [lineEvents, pulses_append, one, List.append_nil]

/-- An ADPCM write feeds bytes to the decoders only (43_adpcm_feed.md R162). -/
theorem pulses_feedDecoders (b : Board) (v : Byte) (ds : List Decoder) : pulses (feedDecoders b v ds) = [] := by
  refine pulses_eq_nil fun e he => ?_
  obtain ⟨d, -, -, rfl⟩ := mem_feedDecoders.mp he
  rfl

/-- SMP emits the pulses of one sample, and every other operation none. -/
theorem exec_pulses {i : Instr} {s t : State} (h : exec i s = .next t) :
    pulses t.out = if i = .smp then samplePulses s.board else [] :=
  exec_cases (P := fun i t => pulses t.out = if i = .smp then samplePulses s.board else []) h
    (smp := pulses_samplePulses s.board)
    (wp2 := fun _ => pulses_commitAccess ..) (rp1 := pulses_readPort1Value ..)
    (pbw := fun _ => pulses_driveDecodersEvents ..) (paw := fun _ => pulses_lineEvents ..)
    (adwa := fun _ _ _ => pulses_feedDecoders ..) (adwb := fun _ _ _ => pulses_feedDecoders ..)
    (wp1 := fun _ => rfl) (rp2 := rfl) (request := fun _ _ => rfl) (store := fun _ _ => rfl) (ack := fun _ => rfl)
    (rcl := rfl) (rst := rfl)

/-! ### The pulses of a run (41_decoder_sync.md R133) -/

/-- The pulses of a run are the group of one sample, once for each SMP: no group is lost, merged with another, or
emitted by another operation. -/
theorem runOps_pulses {is : List Instr} {s u : State} {evs : List Event} (h : runOps is s = some (u, evs)) :
    pulses evs = (List.replicate (is.count .smp) (samplePulses s.board)).flatten := by
  induction is generalizing s evs with
  | nil =>
    simp only [runOps_nil, Option.some.injEq, Prod.mk.injEq] at h
    obtain ⟨-, rfl⟩ := h
    rfl
  | cons i is ih =>
    obtain ⟨t, e, ht, hu, rfl⟩ := runOps_cons_eq_some.mp h
    rw [pulses_append, exec_pulses ht, ih hu, exec_board ht]
    by_cases hi : i = .smp
    · rw [if_pos hi, hi, List.count_cons_self, List.replicate_succ, List.flatten_cons]
    · rw [if_neg hi, List.nil_append, List.count_cons_of_ne hi]

/-- A run emits a pulse as often as its samples do. -/
theorem runOps_count_pulse {is : List Instr} {s u : State} {evs : List Event} (h : runOps is s = some (u, evs))
    {e : Event} (he : isPulse e = true) : evs.count e = is.count .smp * (samplePulses s.board).count e := by
  rw [← count_pulses he, runOps_pulses h, List.count_flatten, List.map_replicate, List.sum_replicate_nat]

/-- A run has one NMI for each SMP. -/
theorem runOps_count_nmi {is : List Instr} {s u : State} {evs : List Event} (h : runOps is s = some (u, evs)) :
    evs.count .nmi = is.count .smp := by
  rw [runOps_count_pulse h rfl, count_nmi_samplePulses, Nat.mul_one]

/-- A run has one clock edge to each level for each SMP if the secondary is present, and none otherwise. -/
theorem runOps_count_secClk {is : List Instr} {s u : State} {evs : List Event} (h : runOps is s = some (u, evs))
    (level : Bool) : evs.count (.secClk level) = if s.board.secondaryPresent then is.count .smp else 0 := by
  rw [runOps_count_pulse h rfl, count_secClk_samplePulses, mul_ite, Nat.mul_one, Nat.mul_zero]

/-- Settles O16: the counts of a run, and the group of one SMP with its whole frame. -/
theorem oneNmiAndOneClockPairPerSample : Obligations.OneNmiAndOneClockPairPerSample :=
  ⟨fun _ _ _ _ h => ⟨runOps_count_nmi h, runOps_count_secClk h true, runOps_count_secClk h false⟩, exec_smp⟩

end Sys2Proof.Machine

/-! PROOFS. The statements of 42_psg_port_handlers.md: the decoders' reset levels (R142), the slave timing of every mode
the secondary is driven in (R141), and the discrete lines (R144). -/

namespace Sys2Proof.Machine

/-! ### The decoders' reset levels (42_psg_port_handlers.md R142) -/

/-- Driving the decoders twice from one byte is driving them once. -/
theorem driveDecoders_driveDecoders (b : Board) (r : Registers) (v : Byte) :
    driveDecoders b (driveDecoders b r v) v = driveDecoders b r v := by
  unfold driveDecoders
  cases b.secondaryPresent <;> rfl

/-- What writes the decoders' registers, reset aside: a portBWrite. -/
theorem eq_pbw_of_writtenPart_decoders {i : Instr} (h : writtenPart i = some .decoders) : ∃ v, i = .pbw v := by
  cases i with
  | pbw v => exact ⟨v, rfl⟩
  | cmd c => cases hc : cmdInt c <;> simp [writtenPart, hc] at h
  | wp1 | wp2 | rp1 | rp2 | smp | paw | adwa | adwb | ack | rcl | rst => cases h

/-- Another part of the record holds none of the decoders' registers. -/
theorem Registers.withPart_decoders_frame {p : RecordPart} (other : p ≠ .decoders) (r q : Registers) :
    (r.withPart p q).decoder1 = r.decoder1 ∧ (r.withPart p q).decoder2 = r.decoder2 := by
  cases p with
  | decoders => exact absurd rfl other
  | busLatch | command | request | lines => exact ⟨rfl, rfl⟩

/-- An operation other than portBWrite and reset leaves both decoders' registers: it writes nothing, or a part of the
record other than theirs. -/
theorem recordAfter_decoders_frame {i : Instr} (notPbw : ∀ v : Byte, i ≠ .pbw v) (notRst : i ≠ .rst) (b : Board)
    (r : Registers) :
    (recordAfter b r i).decoder1 = r.decoder1 ∧ (recordAfter b r i).decoder2 = r.decoder2 := by
  cases writes : writtenPart i with
  | none =>
    rw [recordAfter_of_writtenPart_none writes notRst]
    exact ⟨rfl, rfl⟩
  | some p =>
    have other : p ≠ .decoders := by
      rintro rfl
      obtain ⟨v, hv⟩ := eq_pbw_of_writtenPart_decoders writes
      exact notPbw v hv
    rw [(recordAfter_confinedTo writes b).frame r]
    exact Registers.withPart_decoders_frame other r _

/-- A run without portBWrite and reset leaves both decoders' registers, so a driven level holds however long it is. -/
theorem runOps_decoders_frame {is : List Instr} {s u : State} {evs : List Event} (h : runOps is s = some (u, evs))
    (noPbw : ∀ v : Byte, Instr.pbw v ∉ is) (noRst : Instr.rst ∉ is) :
    u.regs.decoder1 = s.regs.decoder1 ∧ u.regs.decoder2 = s.regs.decoder2 := by
  rw [runOps_regs_eq_foldl h]
  refine List.foldlRecOn (motive := fun r => r.decoder1 = s.regs.decoder1 ∧ r.decoder2 = s.regs.decoder2)
    is (recordAfter s.board) ⟨rfl, rfl⟩ fun r ⟨held1, held2⟩ i hi => ?_
  obtain ⟨kept1, kept2⟩ := recordAfter_decoders_frame (fun v hv => noPbw v (hv ▸ hi)) (fun hr => noRst (hr ▸ hi))
    s.board r
  exact ⟨kept1.trans held1, kept2.trans held2⟩

/-- Settles O20: a portBWrite drives both levels from its byte, again the same from the same byte, and they hold over a
run without another. -/
theorem decoderResetIsALevel : Obligations.DecoderResetIsALevel := by
  refine ⟨fun v s => ?_, fun _ _ _ _ => runOps_decoders_frame⟩
  refine ⟨_, _, exec_pbw v s, rfl, fun present => ?_, exec_pbw v _, driveDecoders_driveDecoders ..⟩
  exact ⟨secondaryDrive s.board v, by simp [present], rfl⟩

/-! ### The modes the secondary is driven in (42_psg_port_handlers.md R141) -/

/-- Every board's `SEC_MODE` has the two properties R141 asks for. -/
theorem forcesSlave_secMode (b : Board) : forcesSlave b.secRateField.val b.secSlaveSetting b.secMode :=
  ⟨fun _ _ => Board.secMode_congr, b.secMode_and_rate⟩

/-- A list that loses nothing with the events addressed to decoder 2 holds none of them. -/
theorem not_mem_of_withoutSecondary_eq_self {evs : List Event} (h : withoutSecondary evs = evs) {e : Event}
    (he : addressesSecondary e = true) : e ∉ evs := by
  intro mem
  have notAddressed := List.filter_eq_self.mp h e mem
  simp [he] at notAddressed

/-- The one mode a port-B byte drives decoder 2 to is `SEC_MODE` of its mode field. -/
theorem eq_secMode_of_mem_driveDecodersEvents {b : Board} {v : Byte} {m : Mode}
    (h : .decMode .secondary m ∈ driveDecodersEvents b v) : m = b.secMode (modeField v) := by
  cases present : b.secondaryPresent with
  | false => simp [driveDecodersEvents, present] at h
  | true => simpa [driveDecodersEvents, present] using h

/-- An ADPCM write feeds data to the decoders and drives no mode (43_adpcm_feed.md R163). -/
theorem decMode_not_mem_feedDecoders (b : Board) (v : Byte) (ds : List Decoder) (d : Decoder) (m : Mode) :
    .decMode d m ∉ feedDecoders b v ds := by
  intro mem
  obtain ⟨_, -, -, fed⟩ := mem_feedDecoders.mp mem
  cases fed

/-- Only a portBWrite drives the secondary's mode, and to `SEC_MODE` of its mode field: SMP pulses and an ADPCM write
feeds data, and the other operations address nothing to decoder 2. -/
theorem exec_drives_secMode {i : Instr} {s t : State} {m : Mode} (h : exec i s = .next t)
    (drives : .decMode .secondary m ∈ t.out) : ∃ v : Byte, i = .pbw v ∧ m = s.board.secMode (modeField v) := by
  have elsewhere {i : Instr} {evs : List Event} (others : withoutSecondary evs = evs)
      (drives : .decMode .secondary m ∈ evs) : ∃ v : Byte, i = .pbw v ∧ m = s.board.secMode (modeField v) :=
    absurd drives (not_mem_of_withoutSecondary_eq_self others rfl)
  refine exec_cases h
    (P := fun i t => .decMode .secondary m ∈ t.out → ∃ v : Byte, i = .pbw v ∧ m = s.board.secMode (modeField v))
    (pbw := fun v drives => ⟨v, rfl, eq_secMode_of_mem_driveDecodersEvents drives⟩)
    (smp := fun drives => ?smp)
    (adwa := fun _ _ _ drives => (decMode_not_mem_feedDecoders _ _ _ _ _ drives).elim)
    (adwb := fun _ _ _ drives => (decMode_not_mem_feedDecoders _ _ _ _ _ drives).elim)
    (wp2 := fun _ => elsewhere (withoutSecondary_commitAccess ..))
    (rp1 := elsewhere (withoutSecondary_readPort1Value ..))
    (paw := fun _ => elsewhere (withoutSecondary_lineEvents ..))
    (wp1 := fun _ => elsewhere rfl) (rp2 := elsewhere rfl) (request := fun _ _ => elsewhere rfl)
    (store := fun _ _ => elsewhere rfl) (ack := fun _ => elsewhere rfl) (rcl := elsewhere rfl) (rst := elsewhere rfl)
    drives
  case smp =>
    have pulse := List.filter_eq_self.mp (pulses_samplePulses s.board) _ drives
    cases pulse

/-- The board whose `SEC_MODE` has the given sub-field, slave setting and, for the other bits, the table of `g`. -/
def boardWithSecMode (rate : RateField) (slave : Mode) (g : Mode → Mode) : Board :=
  { standardBoard with secRateField := rate, secSlaveSetting := slave, secModeTable := secModeTableOf g }

/-- `SEC_MODE` on that board is `g`, if `g` has the two properties: outside the sub-field by the table, which `g` reads
at the rest of the field alone, and in the sub-field by the slave setting. -/
theorem secMode_boardWithSecMode {rate : RateField} {slave : Mode} {g : Mode → Mode}
    (forces : forcesSlave rate.val slave g) (f : Mode) : (boardWithSecMode rate slave g).secMode f = g f := by
  obtain ⟨ignoresRate, givesSlave⟩ := forces
  have rest : g (f &&& ~~~rate.val) = g f := ignoresRate _ _ (by rw [BitVec.and_assoc, BitVec.and_self])
  calc (boardWithSecMode rate slave g).secMode f
    _ = (g (f &&& ~~~rate.val) &&& ~~~rate.val) ||| (slave &&& rate.val) :=
      congrArg (fun x => (x &&& ~~~rate.val) ||| (slave &&& rate.val)) (secModeTableOf_get g _)
    _ = (g f &&& ~~~rate.val) ||| (g f &&& rate.val) := by rw [rest, givesSlave]
    _ = g f := by rw [← BitVec.and_or_distrib_left, BitVec.or_comm, BitVec.or_not_self, BitVec.and_allOnes]

/-- Settles O21: the properties of every `SEC_MODE`, its use in every drive of the secondary's mode, and a board for
every function that has them. -/
theorem secondaryAlwaysDrivenAsSlave : Obligations.SecondaryAlwaysDrivenAsSlave := by
  refine ⟨fun b => ⟨b.secRateField.property, forcesSlave_secMode b⟩, fun m i s t h drives => ?_,
    fun rate slave g someBit forces => ?_⟩
  · obtain ⟨v, -, rfl⟩ := exec_drives_secMode h drives
    exact s.board.secMode_and_rate _
  · exact ⟨boardWithSecMode ⟨rate, someBit⟩ slave g, rfl, rfl, secMode_boardWithSecMode forces⟩

/-! ### The discrete lines (42_psg_port_handlers.md R144) -/

/-- The word 0x70aa is PAW a (30_encoding.md R79). -/
theorem decode_paw_word (a : Byte) : decode (0x70#8 ++ a) = .ok (.paw a) :=
  decode_byteOperand_word (op := 0x7) (by decide) (by decide) (fun w h => by simp [decodeOp, h]) a

/-- Settles O22: the word is PAW's, and bit by bit the operation is its four lines and their events. -/
theorem portAWriteDrivesTheLines : Obligations.PortAWriteDrivesTheLines :=
  fun a s => ⟨decode_paw_word a, exec_paw a s⟩

end Sys2Proof.Machine

/-! PROOFS. The statements of 43_adpcm_feed.md: the decoders that adpcmWriteA (R160) and adpcmWriteB (R161) feed. -/

namespace Sys2Proof.Machine

/-! ### The words of the two ADPCM writes (30_encoding.md R74, R75) -/

/-- A packed word of an assigned OP is decoded by its OP: it has no reserved bit set (30_encoding.md R78, R80). -/
theorem decode_packWord {op : BitVec 4} (low : 1 ≤ op.toNat) (high : op.toNat ≤ 0xD) (off : BitVec 2) (v : Byte) :
    decode (packWord op off v) = decodeOp (packWord op off v) := by
  simp [decode, opAssigned, low, high]

/-- The word 0x8000 | off << 8 | v is ADWA off, v. -/
theorem decode_adwa_word (off : BitVec 2) (v : Byte) : decode ((0b100000#6 ++ off) ++ v) = .ok (.adwa off v) :=
  calc decode ((0b100000#6 ++ off) ++ v)
    _ = decode (packWord 0x8 off v) := rfl
    _ = decodeOp (packWord 0x8 off v) := decode_packWord (by decide) (by decide) off v
    _ = .ok (.adwa off v) := by simp [decodeOp]

/-- A word whose OFF is a 1-bit selector: bits 11:9 are 0 (30_encoding.md R79). -/
theorem packWord_zeroExtend_off (op : BitVec 4) (off : BitVec 1) (data : Byte) :
    packWord op (off.zeroExtend 2) data = ((op ++ 0#3) ++ off) ++ data := by
  have offBits : off.zeroExtend 2 = 0#1 ++ off := BitVec.setWidth_eq_append (by decide)
  have highBits : (op ++ 0#2) ++ (0#1 ++ off) = (op ++ 0#3) ++ off :=
    calc (op ++ 0#2) ++ (0#1 ++ off)
      _ = ((op ++ 0#2) ++ 0#1) ++ off := BitVec.append_assoc.symm
      _ = (op ++ 0#3) ++ off := congrArg (· ++ off) BitVec.append_assoc
  rw [packWord, offBits, highBits]

/-- A 1-bit selector in OFF is read back: OFF[1] is 0, so ADWB's word is not reserved (30_encoding.md R79, R80). -/
theorem decodeAdwb_packWord (op : BitVec 4) (off : BitVec 1) (v : Byte) :
    decodeAdwb (packWord op (off.zeroExtend 2) v) = .ok (.adwb off v) := by
  have selector : (off.zeroExtend 2).extractLsb' 0 1 = off :=
    calc (off.zeroExtend 2).extractLsb' 0 1
      _ = (off.setWidth 2).setWidth 1 := (BitVec.setWidth_eq_extractLsb' (by decide)).symm
      _ = off.setWidth 1 := BitVec.setWidth_setWidth_of_le _ (by decide)
      _ = off := BitVec.setWidth_eq off
  simp [decodeAdwb, selector]

/-- The word 0x9000 | off << 8 | v is ADWB off, v. -/
theorem decode_adwb_word (off : BitVec 1) (v : Byte) : decode ((0b1001000#7 ++ off) ++ v) = .ok (.adwb off v) :=
  calc decode ((0b1001000#7 ++ off) ++ v)
    _ = decode (packWord 0x9 (off.zeroExtend 2) v) := congrArg decode (packWord_zeroExtend_off 0x9 off v).symm
    _ = decodeOp (packWord 0x9 (off.zeroExtend 2) v) := decode_packWord (by decide) (by decide) _ v
    _ = decodeAdwb (packWord 0x9 (off.zeroExtend 2) v) := by simp [decodeOp]
    _ = .ok (.adwb off v) := decodeAdwb_packWord 0x9 off v

/-! ### The decoders an offset addresses, and what they are fed (43_adpcm_feed.md R160, R161) -/

theorem feedDecoders_append (b : Board) (v : Byte) (ds ds' : List Decoder) :
    feedDecoders b v (ds ++ ds') = feedDecoders b v ds ++ feedDecoders b v ds' := List.flatMap_append

theorem feedDecoders_single (b : Board) (v : Byte) (d : Decoder) : feedDecoders b v [d] = feedDecoder b v d :=
  List.flatMap_singleton ..

/-- Whatever the free order, the same events are emitted. -/
theorem feedDecoders_inFreeOrder_perm (b : Board) (v : Byte) (n : Nat) (ds : List Decoder) :
    (feedDecoders b v (inFreeOrder n ds)).Perm (feedDecoders b v ds) :=
  (inFreeOrder_perm n ds).flatMap_right _

/-- Decoder 1 is on every board (00_scope.md R11). -/
theorem feedDecoder_primary (b : Board) (v : Byte) : feedDecoder b v .primary = [.decData .primary v] := rfl

/-- Decoder 2 takes its byte only where it is present (00_scope.md R11). -/
theorem feedDecoder_secondary (b : Board) (v : Byte) :
    feedDecoder b v .secondary = if b.secondaryPresent then [.decData .secondary v] else [] := rfl

/-- The offset bits of a variant A write, each with the event of its decoder. -/
theorem feedDecoders_targetsA (b : Board) (v : Byte) (off : BitVec 2) :
    feedDecoders b v (targetsA off) =
      (if off.getLsbD 0 then [.decData .primary v] else []) ++
        (if off.getLsbD 1 && b.secondaryPresent then [.decData .secondary v] else []) := by
  rw [targetsA, feedDecoders_append]
  congr 1
  · split
    case isTrue => exact feedDecoder_primary b v
    case isFalse => rfl
  · cases off.getLsbD 1 with
    | true => exact feedDecoders_single b v .secondary
    | false => rfl

/-- The selector of a variant B write, with the event of the decoder it names. -/
theorem feedDecoder_targetB (b : Board) (v : Byte) (off : BitVec 1) :
    feedDecoder b v (targetB off) =
      if off = 0 then [.decData .primary v] else if b.secondaryPresent then [.decData .secondary v] else [] := by
  rcases BitVec.eq_zero_or_eq_one off with rfl | rfl
  · exact feedDecoder_primary b v
  · exact feedDecoder_secondary b v

/-! ### What the two operations answer -/

/-- Settles O23: the bytes fed are those of the addressed decoders, in one of their orders. -/
theorem adpcmWriteAFeedsEveryAddressedDecoder : Obligations.AdpcmWriteAFeedsEveryAddressedDecoder := by
  refine fun off v s =>
    ⟨decode_adwa_word off v, fun wired => ⟨_, exec_adwa_wired wired off v, ?_⟩, fun unwired t h => ?_⟩
  · rw [← feedDecoders_targetsA]
    exact feedDecoders_inFreeOrder_perm ..
  · rw [exec_adwa_refused unwired] at h
    cases h

/-- Settles O24: the byte is fed to the one selected decoder. -/
theorem adpcmWriteBFeedsOneDecoder : Obligations.AdpcmWriteBFeedsOneDecoder := by
  refine fun off v s => ⟨decode_adwb_word off v, fun wired => ?_, fun unwired t h => ?_⟩
  · rw [exec_adwb_wired wired, feedDecoders_single, feedDecoder_targetB]
  · rw [exec_adwb_refused unwired] at h
    cases h

end Sys2Proof.Machine

/-! PROOFS. The statements of 44_command_latch.md on submitCommand: what one command does (R170), and the interrupt
request, held until an acknowledge (R171). -/

namespace Sys2Proof.Machine

/-! ### The interrupt request is held (44_command_latch.md R171) -/

/-- A `port2` write leaves the request as it is. -/
theorem commitAccess_irq (b : Board) (n : Nat) (r : Registers) (v : Byte) :
    (commitAccess b n r v).1.irq = r.irq := by
  rw [commitAccess_regs]

/-- Only an acknowledge and a reset clear a request: a bit-7 command sets it again, and the other operations do not
write it. -/
theorem recordAfter_holds_irq {i : Instr} {r : Registers} (raised : r.irq = true) (notAck : ∀ v : Byte, i ≠ .ack v)
    (notRst : i ≠ .rst) (b : Board) : (recordAfter b r i).irq = true := by
  cases i with
  | ack v => exact absurd rfl (notAck v)
  | rst => exact absurd rfl notRst
  | cmd c =>
    cases hc : cmdInt c with
    | true => rw [recordAfter_request hc]
    | false => rw [recordAfter_store hc]; exact raised
  | wp2 v => exact (commitAccess_irq b 0 r v).trans raised
  | wp1 | rp1 | rp2 | smp | pbw | paw | adwa | adwb | rcl => exact raised

/-- A run without acknowledge and reset holds a request, however long it is. -/
theorem runOps_holds_irq {is : List Instr} {s u : State} {evs : List Event} (h : runOps is s = some (u, evs))
    (raised : s.regs.irq = true) (noAck : ∀ v : Byte, Instr.ack v ∉ is) (noRst : Instr.rst ∉ is) :
    u.regs.irq = true := by
  rw [runOps_regs_eq_foldl h]
  exact List.foldlRecOn (motive := fun r => r.irq = true) is (recordAfter s.board) raised fun _ held i hi =>
    recordAfter_holds_irq held (fun v hv => noAck v (hv ▸ hi)) (fun hr => noRst (hr ▸ hi)) s.board

/-- Raising a request that is raised changes nothing: the line is held, not counted. -/
theorem Registers.raise_irq_of_raised {r : Registers} (raised : r.irq = true) : { r with irq := true } = r := by
  rw [← raised]

/-- Settles O27: a request is held over the run, absorbs a second one, and one acknowledge clears it. -/
theorem irqStaysSetUntilAcknowledged : Obligations.IrqStaysSetUntilAcknowledged :=
  ⟨fun _ _ _ _ => runOps_holds_irq,
    fun _ s raised bit7 => ⟨_, exec_cmd_request bit7 s, Registers.raise_irq_of_raised raised⟩,
    fun v s => ⟨_, exec_ack v s, rfl⟩⟩

/-! ### One command (44_command_latch.md R170) -/

/-- The word 0xA0cc is CMD c (30_encoding.md R79). -/
theorem decode_cmd_word (c : Byte) : decode (0xA0#8 ++ c) = .ok (.cmd c) :=
  decode_byteOperand_word (op := 0xA) (by decide) (by decide) (fun w h => by simp [decodeOp, h]) c

/-- Settles O26: the word is CMD's, and bit 7 tells the store from the request. -/
theorem submitCommandStoresOrRequests : Obligations.SubmitCommandStoresOrRequests :=
  fun c s => ⟨decode_cmd_word c, fun bit7Clear => exec_cmd_store bit7Clear s, fun bit7 => exec_cmd_request bit7 s⟩

end Sys2Proof.Machine

/-! PROOFS. The statements of 60_exceptions.md: the interrupt request line carries the latch's level and the latch
changes only with its event (R204), and a board without a required collaborator is refused (R201). -/

namespace Sys2Proof.Machine

/-! ### What drives no interrupt request line (60_exceptions.md R204) -/

/-- An edge accesses PSGs only (40_control_bus_latch.md R101). -/
theorem irq_not_mem_commitAccess (b : Board) (n : Nat) (r : Registers) (v : Byte) (level : Bool) :
    .irq level ∉ (commitAccess b n r v).2 := by
  rw [commitAccess_events]
  split
  case isTrue =>
    intro mem
    obtain ⟨t, -, access⟩ := List.mem_map.mp mem
    unfold accessEvent at access
    split at access <;> cases access
  case isFalse => exact List.not_mem_nil

/-- A read of port 1 accesses PSGs only (40_control_bus_latch.md R106). -/
theorem irq_not_mem_readPort1Value (b : Board) (n : Nat) (r : Registers) (level : Bool) :
    .irq level ∉ (readPort1Value b n r).2 := by
  rcases readPort1Value_cases b n r with ⟨-, h⟩ | ⟨-, t, -, h⟩ | ⟨-, -, h⟩ <;> simp [h]

/-- A sample pulses the non-maskable interrupt input and the secondary's clock only (41_decoder_sync.md R130). -/
theorem irq_not_mem_samplePulses (b : Board) (level : Bool) : .irq level ∉ samplePulses b := by
  intro mem
  have pulse := List.filter_eq_self.mp (pulses_samplePulses b) _ mem
  cases pulse

/-- A port-B byte drives the decoders only (42_psg_port_handlers.md R140). -/
theorem irq_not_mem_driveDecodersEvents (b : Board) (v : Byte) (level : Bool) :
    .irq level ∉ driveDecodersEvents b v := by
  unfold driveDecodersEvents
  split <;> simp

/-- A port-A byte drives the discrete lines only (42_psg_port_handlers.md R144). -/
theorem irq_not_mem_lineEvents (b : Board) (a : Byte) (level : Bool) : .irq level ∉ lineEvents b a := by
  have one (i : Line) : .irq level ∉ lineEvent b a i := by
    unfold lineEvent
    split <;> simp
  simp [lineEvents, one]

/-- An ADPCM write feeds bytes to the decoders only (43_adpcm_feed.md R162). -/
theorem irq_not_mem_feedDecoders (b : Board) (v : Byte) (ds : List Decoder) (level : Bool) :
    .irq level ∉ feedDecoders b v ds := by
  intro mem
  obtain ⟨_, -, -, fed⟩ := mem_feedDecoders.mp mem
  cases fed

/-! ### The line follows the latch (60_exceptions.md R204) -/

/-- The operation that left `t` drove the line to the level it left the latch at, and emitted nothing else. -/
def DrivesIrqLine (t : State) : Prop := t.out = [.irq t.regs.irq]

/-- The operation `i`, which leaves `t` from `s`, does not drive the line, and leaves the latch as it is unless it is a
reset. -/
def LeavesIrqLine (s : State) (i : Instr) (t : State) : Prop :=
  (∀ level : Bool, .irq level ∉ t.out) ∧ (i ≠ .rst → t.regs.irq = s.regs.irq)

/-- A bit-7 command and an acknowledge drive the line; no other operation touches the line or, but for reset, the
latch. -/
theorem exec_drivesIrqLine_or_leavesIrqLine {i : Instr} {s t : State} (h : exec i s = .next t) :
    DrivesIrqLine t ∨ LeavesIrqLine s i t :=
  exec_cases (P := fun i t => DrivesIrqLine t ∨ LeavesIrqLine s i t) h
    (request := fun _ _ => .inl rfl) (ack := fun _ => .inl rfl)
    (rst := .inr ⟨fun _ => List.not_mem_nil, fun notRst => absurd rfl notRst⟩)
    (wp2 := fun _ => .inr ⟨irq_not_mem_commitAccess _ _ _ _, fun _ => commitAccess_irq ..⟩)
    (rp1 := .inr ⟨irq_not_mem_readPort1Value _ _ _, fun _ => rfl⟩)
    (smp := .inr ⟨irq_not_mem_samplePulses s.board, fun _ => rfl⟩)
    (pbw := fun _ => .inr ⟨irq_not_mem_driveDecodersEvents _ _, fun _ => rfl⟩)
    (paw := fun _ => .inr ⟨irq_not_mem_lineEvents _ _, fun _ => rfl⟩)
    (adwa := fun _ _ _ => .inr ⟨irq_not_mem_feedDecoders _ _ _, fun _ => rfl⟩)
    (adwb := fun _ _ _ => .inr ⟨irq_not_mem_feedDecoders _ _ _, fun _ => rfl⟩)
    (wp1 := fun _ => .inr ⟨fun _ => List.not_mem_nil, fun _ => rfl⟩)
    (rp2 := .inr ⟨fun _ => by simp, fun _ => rfl⟩)
    (store := fun _ _ => .inr ⟨fun _ => List.not_mem_nil, fun _ => rfl⟩)
    (rcl := .inr ⟨fun _ => List.not_mem_nil, fun _ => rfl⟩)

/-- Settles O31: the two operations that drive the line emit the latch's new level and nothing else, and the others
emit no `Irq` event and, but for reset, do not move the latch. -/
theorem irqLineFollowsTheLatch : Obligations.IrqLineFollowsTheLatch := by
  refine ⟨fun c s bit7 => ⟨_, exec_cmd_request bit7 s, rfl⟩, fun v s => ⟨_, exec_ack v s, rfl⟩, fun i s t h => ?_⟩
  rcases exec_drivesIrqLine_or_leavesIrqLine h with drives | ⟨silent, held⟩
  · rw [drives]
    exact ⟨fun b mem => (Event.irq.inj (List.mem_singleton.mp mem)).symm, fun _ _ => List.mem_singleton_self _⟩
  · exact ⟨fun b mem => absurd mem (silent b), fun notRst changed => absurd (held notRst) changed⟩

/-! ### The required collaborators (60_exceptions.md R201) -/

/-- A board has the required collaborators when it has each of the three. -/
theorem hasCollaborators_iff {b : Board} :
    b.hasCollaborators = true ↔ b.primaryPresent = true ∧ b.psgMPresent = true ∧ b.psgLPresent = true := by
  simp [Board.hasCollaborators, and_assoc]

/-- A board lacks a required collaborator when any of the three is absent. -/
theorem hasCollaborators_eq_false_iff {b : Board} :
    b.hasCollaborators = false ↔ b.primaryPresent = false ∨ b.psgMPresent = false ∨ b.psgLPresent = false := by
  rw [← Bool.not_eq_true, hasCollaborators_iff]
  simp only [not_and_or, Bool.not_eq_true]

/-- A board with the required collaborators is configured, in its reset state (70_reset_and_hazards.md R231). -/
theorem configure_of_hasCollaborators {b : Board} (h : b.hasCollaborators = true) :
    configure b = .ok (State.resetOn b) :=
  if_pos h

/-- A board without one is not. -/
theorem configure_of_collaboratorMissing {b : Board} (h : b.hasCollaborators = false) :
    configure b = .error .requiredCollaboratorMissing :=
  if_neg (Bool.eq_false_iff.mp h)

/-- No step exists on a board without one, whatever the input. -/
theorem step_of_collaboratorMissing {s : State} (h : s.board.hasCollaborators = false) :
    step s = .refused .requiredCollaboratorMissing :=
  if_neg (Bool.eq_false_iff.mp h)

/-- Settles O34: configuration and step both ask for the required collaborators, which are these three. -/
theorem missingCollaboratorIsRefused : Obligations.MissingCollaboratorIsRefused := by
  refine ⟨fun b primary psgM psgL => configure_of_hasCollaborators (hasCollaborators_iff.mpr ⟨primary, psgM, psgL⟩),
    fun b missing => ?_⟩
  have lacks : b.hasCollaborators = false := hasCollaborators_eq_false_iff.mpr missing
  refine ⟨configure_of_collaboratorMissing lacks, ?_⟩
  rintro s rfl
  exact step_of_collaboratorMissing lacks

end Sys2Proof.Machine

/-! PROOFS. The statement of 70_reset_and_hazards.md on interleaved selects (R235): over a run without reset each PSG's
select latch follows that PSG's register-select events, so a data edge reaches the register of the last one. -/

namespace Sys2Proof.Machine

/-! ### The last register select of a list of events (10_state.md R24) -/

/-- The last select of two lists is that of the second, starting from that of the first. -/
theorem lastSelect_append (t : Psg) (a : Option Byte) (e₁ e₂ : List Event) :
    lastSelect t a (e₁ ++ e₂) = lastSelect t (lastSelect t a e₁) e₂ := by
  induction e₁ generalizing a with
  | nil => rfl
  | cons e e₁ ih => cases e <;> exact ih _

/-- Events without a select on `t` leave its last select. -/
theorem lastSelect_of_not_mem {t : Psg} {evs : List Event} (noSelect : ∀ v : Byte, .psgAddr t v ∉ evs)
    (a : Option Byte) : lastSelect t a evs = a := by
  induction evs with
  | nil => rfl
  | cons e evs ih =>
    have rest := ih fun v hv => noSelect v (List.mem_cons_of_mem e hv)
    cases e with
    | psgAddr u v =>
      have other : u ≠ t := fun h => noSelect v (h ▸ List.mem_cons_self)
      rw [lastSelect, if_neg other, rest]
    | _ => exact rest

/-- A read of port 1 selects no register (40_control_bus_latch.md R106). -/
theorem lastSelect_readPort1Value (t : Psg) (a : Option Byte) (b : Board) (n : Nat) (r : Registers) :
    lastSelect t a (readPort1Value b n r).2 = a := by
  rcases readPort1Value_cases b n r with ⟨-, h⟩ | ⟨-, _, -, h⟩ | ⟨-, -, h⟩ <;> rw [h] <;> rfl

/-- Nor does a sample (41_decoder_sync.md R130). -/
theorem lastSelect_samplePulses (t : Psg) (a : Option Byte) (b : Board) : lastSelect t a (samplePulses b) = a := by
  rw [samplePulses_eq_ite]
  split <;> rfl

/-- Nor does a port-B byte (42_psg_port_handlers.md R140). -/
theorem lastSelect_driveDecodersEvents (t : Psg) (a : Option Byte) (b : Board) (v : Byte) :
    lastSelect t a (driveDecodersEvents b v) = a := by
  unfold driveDecodersEvents
  split <;> rfl

/-- Nor does a port-A byte (42_psg_port_handlers.md R144). -/
theorem lastSelect_lineEvents (t : Psg) (a : Option Byte) (b : Board) (v : Byte) :
    lastSelect t a (lineEvents b v) = a := by
  have one (a : Option Byte) (i : Line) : lastSelect t a (lineEvent b v i) = a := by
    unfold lineEvent
    split <;> rfl
  simp only [lineEvents, lastSelect_append, one]

/-- Nor does an ADPCM write (43_adpcm_feed.md R162). -/
theorem lastSelect_feedDecoders (t : Psg) (a : Option Byte) (b : Board) (v : Byte) (ds : List Decoder) :
    lastSelect t a (feedDecoders b v ds) = a := by
  refine lastSelect_of_not_mem (fun w mem => ?_) a
  obtain ⟨_, -, -, fed⟩ := mem_feedDecoders.mp mem
  cases fed

/-! ### The latches follow the selects (40_control_bus_latch.md R104, R105) -/

/-- Each PSG's latch, `r` before the events and `q` after them, is left by the last select on that PSG among them. -/
def LatchesFollow (r : Registers) (evs : List Event) (q : Registers) : Prop :=
  ∀ t : Psg, q.psgAddr t = lastSelect t (r.psgAddr t) evs

theorem LatchesFollow.refl (r : Registers) : LatchesFollow r [] r := fun _ => rfl

theorem LatchesFollow.trans {r q p : Registers} {e₁ e₂ : List Event} (h₁ : LatchesFollow r e₁ q)
    (h₂ : LatchesFollow q e₂ p) : LatchesFollow r (e₁ ++ e₂) p := fun t => by
  rw [h₂ t, h₁ t, lastSelect_append]

/-- One access: a select is its event, on its PSG only; a data write is no select and sets no latch. -/
theorem accessPsg_latchesFollow (d : Byte) (r : Registers) (t : Psg) :
    LatchesFollow r (accessPsg d r t).2 (accessPsg d r t).1 := by
  intro u
  cases phase : ph d with
  | true =>
    rw [accessPsg_select phase, Registers.psgAddr_setPsgAddr]
    exact if_congr eq_comm rfl rfl
  | false => rw [accessPsg_data phase]; rfl

/-- So it is for any accesses one after the other, in whichever order they come. -/
theorem accessPsgs_latchesFollow (d : Byte) (r : Registers) (ts : List Psg) :
    LatchesFollow r (accessPsgs d r ts).2 (accessPsgs d r ts).1 := by
  induction ts generalizing r with
  | nil => exact .refl r
  | cons t ts ih => exact (accessPsg_latchesFollow d r t).trans (ih _)

/-- And for the accesses that a write of `port2` commits. -/
theorem commitAccess_latchesFollow (b : Board) (n : Nat) (r : Registers) (v : Byte) :
    LatchesFollow r (commitAccess b n r v).2 (commitAccess b n r v).1 := by
  cases edge : fall r.port2 v with
  | true => rw [commitAccess_edge edge]; exact accessPsgs_latchesFollow _ _ _
  | false => rw [commitAccess_noEdge edge]; exact .refl r

/-- But for reset, which clears the latches without an event (R230), every operation keeps each latch at the last
select: writePort2 through its accesses, the others by neither selecting nor writing a latch. -/
theorem exec_latchesFollow {i : Instr} {s t : State} (h : exec i s = .next t) (notRst : i ≠ .rst) :
    LatchesFollow s.regs t.out t.regs :=
  exec_cases (P := fun i t => i ≠ .rst → LatchesFollow s.regs t.out t.regs) h
    (wp2 := fun v _ p => (storePort2_psgAddr _ v p).trans (commitAccess_latchesFollow _ _ _ v p))
    (rst := fun notRst => absurd rfl notRst)
    (rp1 := fun _ p => (lastSelect_readPort1Value p ..).symm)
    (smp := fun _ p => (lastSelect_samplePulses p _ s.board).symm)
    (pbw := fun _ _ p => (lastSelect_driveDecodersEvents p ..).symm)
    (paw := fun _ _ p => (lastSelect_lineEvents p ..).symm)
    (adwa := fun _ _ _ _ p => (lastSelect_feedDecoders p ..).symm)
    (adwb := fun _ _ _ _ p => (lastSelect_feedDecoders p ..).symm)
    (wp1 := fun _ _ _ => rfl) (rp2 := fun _ _ => rfl) (request := fun _ _ _ _ => rfl) (store := fun _ _ _ _ => rfl)
    (ack := fun _ _ _ => rfl) (rcl := fun _ _ => rfl) notRst

/-- A run without reset leaves each latch at the last select on its PSG, however the two PSGs' selects interleave. -/
theorem runOps_latchesFollow {is : List Instr} {s u : State} {evs : List Event} (h : runOps is s = some (u, evs))
    (noRst : Instr.rst ∉ is) : LatchesFollow s.regs evs u.regs := by
  induction is generalizing s evs with
  | nil =>
    simp only [runOps_nil, Option.some.injEq, Prod.mk.injEq] at h
    obtain ⟨rfl, rfl⟩ := h
    exact .refl _
  | cons i is ih =>
    obtain ⟨t, e, ht, hu, rfl⟩ := runOps_cons_eq_some.mp h
    have notRst : i ≠ .rst := (List.ne_of_not_mem_cons noRst).symm
    exact (exec_latchesFollow ht notRst).trans (ih hu (List.not_mem_of_not_mem_cons noRst))

/-- Settles O6: a data edge writes to the register its PSG's latch names, and the run leaves that latch at the last
select. -/
theorem dataEdgeReachesMostRecentSelect : Obligations.DataEdgeReachesMostRecentSelect := by
  intro is s u evs t v run noRst edge phase selected
  obtain ⟨w, hw, event, -⟩ := exec_wp2_dataEdge edge phase selected
  exact ⟨w, hw, runOps_latchesFollow run noRst t ▸ event⟩

end Sys2Proof.Machine

/-! PROOFS. The statements of 30_encoding.md on the transaction word: encoder and decoder are inverse to one another
(R78, R79), the match and mask table (R79), the groups of reserved words (R80), and the trace lines (R83). -/

namespace Sys2Proof.Laws

/-! ### Decoding the encoder's word (30_encoding.md R79) -/

/-- A word with OFF = 0 is read with its data as the byte operand. -/
theorem decodeByteOperand_packWord (op : BitVec 4) (v : Byte) (k : Byte → Instr) :
    decodeByteOperand (packWord op 0#2 v) k = .ok (k v) := by
  simp [decodeByteOperand]

/-- A word with OFF = 0 and DATA = 0 is read as the operation without operand. -/
theorem decodeNoOperand_packWord (op : BitVec 4) (i : Instr) : decodeNoOperand (packWord op 0#2 0#8) i = .ok i := by
  simp [decodeNoOperand]

/-- The word of an operation is read by the row of its OP. -/
theorem decodeOp_encode (i : Instr) : decodeOp (encode i) = .ok i := by
  cases i with
  | wp1 | wp2 | pbw | paw | cmd | ack => simp [encode, decodeOp, decodeByteOperand_packWord]
  | rp1 | rp2 | smp | rcl | rst => simp [encode, decodeOp, decodeNoOperand_packWord]
  | adwa => simp [encode, decodeOp]
  | adwb off v => simpa [encode, decodeOp] using Machine.decodeAdwb_packWord 0x9 off v

/-- The encoder writes an assigned OP and leaves bits 11:10 at 0. -/
theorem encode_opAssigned_and_resField (i : Instr) : opAssigned (encode i) = true ∧ resField (encode i) = 0 := by
  cases i <;> simp [encode, opAssigned]

/-- Decoding an encoded operation gives it back. -/
theorem decode_encode (i : Instr) : decode (encode i) = .ok i := by
  obtain ⟨assigned, reservedClear⟩ := encode_opAssigned_and_resField i
  simp [decode, assigned, reservedClear, decodeOp_encode]

/-- The table decoder reads a 16-bit number as the decoder reads the word. -/
theorem decodeTableWord_of_decode {w : Word} {i : Instr} (h : decode w = .ok i) :
    decodeTableWord 16 w.toNat = some i := by
  have same : BitVec.ofNat 16 (w.toNat % 2 ^ 16) = w := by
    rw [Nat.mod_eq_of_lt w.isLt, BitVec.ofNat_toNat, BitVec.setWidth_eq]
  rw [decodeTableWord, same, h]

/-- Settles O36: the table decoder goes through the decoder. -/
theorem decodeOfEncodeIsIdentity : Obligations.DecodeOfEncodeIsIdentity :=
  fun i => ⟨decode_encode i, decodeTableWord_of_decode (decode_encode i)⟩

/-! ### Encoding the decoded operation (30_encoding.md R79) -/

/-- What the decoder accepts has an assigned OP and bits 11:10 at 0, and is read by its OP. -/
theorem decode_eq_ok_iff {w : Word} {i : Instr} :
    decode w = .ok i ↔ opAssigned w = true ∧ resField w = 0 ∧ decodeOp w = .ok i := by
  unfold decode
  split
  case isTrue assigned => split <;> simp_all
  case isFalse unassigned => simp [unassigned]

/-- A word read with a byte operand is the word of the operation it is read as. -/
theorem encode_of_decodeByteOperand {w : Word} {k : Byte → Instr} {i : Instr} {op : BitVec 4}
    (h : decodeByteOperand w k = .ok i) (encodes : ∀ v, encode (k v) = packWord op 0 v) (hop : opField w = op) :
    encode i = packWord (opField w) (offField w) (dataField w) := by
  unfold decodeByteOperand at h
  split at h <;> cases h
  next off => rw [encodes, hop, off]

/-- A word read with no operand is the word of the operation it is read as. -/
theorem encode_of_decodeNoOperand {w : Word} {i j : Instr} {op : BitVec 4} (h : decodeNoOperand w j = .ok i)
    (encodes : encode j = packWord op 0 0) (hop : opField w = op) :
    encode i = packWord (opField w) (offField w) (dataField w) := by
  unfold decodeNoOperand at h
  split at h
  case isTrue off =>
    split at h <;> cases h
    next data => rw [encodes, hop, off, data]
  case isFalse => cases h

/-- An offset with bit 1 clear is its bit 0, widened. -/
theorem zeroExtend_low_of_high_clear : ∀ off : BitVec 2, off.getLsbD 1 = false →
    (off.extractLsb' 0 1).zeroExtend 2 = off := by decide

/-- A word read as ADWB is the word of that ADWB. -/
theorem encode_of_decodeAdwb {w : Word} {i : Instr} (h : decodeAdwb w = .ok i) (hop : opField w = 0x9) :
    encode i = packWord (opField w) (offField w) (dataField w) := by
  unfold decodeAdwb at h
  split at h <;> cases h
  next high => rw [encode, zeroExtend_low_of_high_clear _ (Bool.eq_false_iff.mpr high), hop]

/-- Row by row, the fields of a word that is read as an operation are those the encoder packs for it. -/
theorem encode_of_decodeOp {w : Word} {i : Instr} (h : decodeOp w = .ok i) :
    encode i = packWord (opField w) (offField w) (dataField w) := by
  have field {op : BitVec 4} (hop : (opField w).toNat = op.toNat) : opField w = op := BitVec.eq_of_toNat_eq hop
  unfold decodeOp at h
  split at h
  next hop => exact encode_of_decodeByteOperand (op := 0x1) h (fun _ => rfl) (field hop)
  next hop => exact encode_of_decodeByteOperand (op := 0x2) h (fun _ => rfl) (field hop)
  next hop => exact encode_of_decodeNoOperand (op := 0x3) h rfl (field hop)
  next hop => exact encode_of_decodeNoOperand (op := 0x4) h rfl (field hop)
  next hop => exact encode_of_decodeNoOperand (op := 0x5) h rfl (field hop)
  next hop => exact encode_of_decodeByteOperand (op := 0x6) h (fun _ => rfl) (field hop)
  next hop => exact encode_of_decodeByteOperand (op := 0x7) h (fun _ => rfl) (field hop)
  next hop =>
    cases h
    rw [encode, field (op := 0x8) hop]
  next hop => exact encode_of_decodeAdwb h (field hop)
  next hop => exact encode_of_decodeByteOperand (op := 0xA) h (fun _ => rfl) (field hop)
  next hop => exact encode_of_decodeByteOperand (op := 0xB) h (fun _ => rfl) (field hop)
  next hop => exact encode_of_decodeNoOperand (op := 0xC) h rfl (field hop)
  next hop => exact encode_of_decodeNoOperand (op := 0xD) h rfl (field hop)
  next => cases h

/-- Settles O37: with bits 11:10 at 0, the word is its fields packed again. -/
theorem encodeOfDecodeIsIdentity : Obligations.EncodeOfDecodeIsIdentity := by
  intro w i h
  obtain ⟨-, reservedClear, read⟩ := decode_eq_ok_iff.mp h
  exact (encode_of_decodeOp read).trans (packWord_fields reservedClear)

/-- A word decodes to an operation exactly when it is that operation's word. -/
theorem decode_eq_ok_iff_encode_eq {w : Word} {i : Instr} : decode w = .ok i ↔ encode i = w :=
  ⟨encodeOfDecodeIsIdentity w i, fun h => h ▸ decode_encode i⟩

/-! ### The match and mask table (30_encoding.md R79) -/

/-- Every operation's word matches its own row. -/
theorem encodesItsRow (i : Instr) : EncodesItsRow.Statement i := by
  cases i with
  | wp1 v => exact EncodesItsRow.wp1 v
  | wp2 v => exact EncodesItsRow.wp2 v
  | rp1 => exact EncodesItsRow.rp1
  | rp2 => exact EncodesItsRow.rp2
  | smp => exact EncodesItsRow.smp
  | pbw b => exact EncodesItsRow.pbw b
  | paw a => exact EncodesItsRow.paw a
  | adwa off v => exact EncodesItsRow.adwa off v
  | adwb off v => exact EncodesItsRow.adwb off v
  | cmd c => exact EncodesItsRow.cmd c
  | ack v => exact EncodesItsRow.ack v
  | rcl => exact EncodesItsRow.rcl
  | rst => exact EncodesItsRow.rst

/-- Every operation's row is in the table. -/
theorem encodingRow_mem_encodingTable (i : Instr) : i.encodingRow ∈ encodingTable := by
  cases i <;> simp [Instr.encodingRow, encodingTable]

/-- A word that matches a row has the row's OP, OFF and DATA where the row's mask has bits. -/
theorem fields_of_match {w m p : Word} (h : w &&& m = p) :
    opField w &&& opField m = opField p ∧ resField w &&& resField m = resField p ∧
      offField w &&& offField m = offField p ∧ dataField w &&& dataField m = dataField p := by
  rw [← h]
  exact ⟨BitVec.extractLsb'_and.symm, BitVec.extractLsb'_and.symm, BitVec.extractLsb'_and.symm,
    BitVec.extractLsb'_and.symm⟩

/-- Where the mask of a row covers OP and bits 11:10, as all of them do, a word that matches it is packed from the
row's OP and its own OFF and DATA. -/
theorem eq_packWord_of_match {w m p : Word} (h : w &&& m = p) (covers : opField m = 0xF ∧ resField m = 3)
    (reservedClear : resField p = 0) : w = packWord (opField p) (offField w) (dataField w) := by
  obtain ⟨opMask, resMask⟩ := covers
  obtain ⟨op, res, -, -⟩ := fields_of_match h
  rw [opMask, show (0xF : BitVec 4) = BitVec.allOnes 4 from rfl, BitVec.and_allOnes] at op
  rw [resMask, show (3 : BitVec 2) = BitVec.allOnes 2 from rfl, BitVec.and_allOnes, reservedClear] at res
  rw [← op, packWord_fields res]

/-- A word that matches a row with a byte operand, of OP `op`: OFF is 0 and DATA is free. -/
theorem eq_packWord_of_match_ff00 {w : Word} {op : BitVec 4} (h : w &&& 0xFF00 = packWord op 0 0) :
    packWord op 0 (dataField w) = w := by
  have packed := eq_packWord_of_match h (by decide) (resField_packWord ..)
  obtain ⟨-, -, off, -⟩ := fields_of_match h
  rw [show offField 0xFF00 = BitVec.allOnes 2 from rfl, BitVec.and_allOnes, offField_packWord] at off
  rw [opField_packWord, off] at packed
  exact packed.symm

/-- A word that matches a row without operand is the row's pattern. -/
theorem eq_packWord_of_match_ffff {w p : Word} (h : w &&& 0xFFFF = p) : p = w := by
  rw [← h, show (0xFFFF : Word) = BitVec.allOnes 16 from rfl, BitVec.and_allOnes]

/-- A word that matches the row of ADWA: OFF and DATA are free. -/
theorem eq_packWord_of_match_fc00 {w : Word} {op : BitVec 4} (h : w &&& 0xFC00 = packWord op 0 0) :
    packWord op (offField w) (dataField w) = w := by
  have packed := eq_packWord_of_match h (by decide) (resField_packWord ..)
  rw [opField_packWord] at packed
  exact packed.symm

/-- A word that matches the row of ADWB: OFF[0] and DATA are free, OFF[1] is 0. -/
theorem eq_packWord_of_match_fe00 {w : Word} {op : BitVec 4} (h : w &&& 0xFE00 = packWord op 0 0) :
    packWord op (((offField w).extractLsb' 0 1).zeroExtend 2) (dataField w) = w := by
  have packed := eq_packWord_of_match h (by decide) (resField_packWord ..)
  obtain ⟨-, -, off, -⟩ := fields_of_match h
  have high : (offField w).getLsbD 1 = false := by
    rw [show offField 0xFE00 = 2#2 from rfl, offField_packWord] at off
    simpa using congrArg (fun bits => bits.getLsbD 1) off
  rw [opField_packWord] at packed
  rw [zeroExtend_low_of_high_clear _ high]
  exact packed.symm

/-- A word that matches a row of the table is the word of an operation with that row. -/
theorem exists_encode_eq_of_match {w : Word} {r : EncodingRow} (mem : r ∈ encodingTable)
    (h : w &&& r.mask = r.pattern) : ∃ i : Instr, encode i = w := by
  simp only [encodingTable, List.mem_cons, List.not_mem_nil, or_false] at mem
  obtain rfl | rfl | rfl | rfl | rfl | rfl | rfl | rfl | rfl | rfl | rfl | rfl | rfl := mem
  · exact ⟨.wp1 _, eq_packWord_of_match_ff00 h⟩
  · exact ⟨.wp2 _, eq_packWord_of_match_ff00 h⟩
  · exact ⟨.rp1, eq_packWord_of_match_ffff h⟩
  · exact ⟨.rp2, eq_packWord_of_match_ffff h⟩
  · exact ⟨.smp, eq_packWord_of_match_ffff h⟩
  · exact ⟨.pbw _, eq_packWord_of_match_ff00 h⟩
  · exact ⟨.paw _, eq_packWord_of_match_ff00 h⟩
  · exact ⟨.adwa _ _, eq_packWord_of_match_fc00 h⟩
  · exact ⟨.adwb _ _, eq_packWord_of_match_fe00 h⟩
  · exact ⟨.cmd _, eq_packWord_of_match_ff00 h⟩
  · exact ⟨.ack _, eq_packWord_of_match_ff00 h⟩
  · exact ⟨.rcl, eq_packWord_of_match_ffff h⟩
  · exact ⟨.rst, eq_packWord_of_match_ffff h⟩

/-- Every row of the table fixes OP. -/
theorem opField_mask_of_mem : ∀ r ∈ encodingTable, opField r.mask = BitVec.allOnes 4 := by decide

/-- OP tells the rows of the table apart. -/
theorem eq_of_opField_pattern_eq :
    ∀ r ∈ encodingTable, ∀ q ∈ encodingTable, opField r.pattern = opField q.pattern → r = q := by decide

/-- A word that matches a row of the table has the row's OP. -/
theorem opField_of_match {w : Word} {r : EncodingRow} (mem : r ∈ encodingTable) (h : w &&& r.mask = r.pattern) :
    opField w = opField r.pattern := by
  obtain ⟨op, -⟩ := fields_of_match h
  rwa [opField_mask_of_mem r mem, BitVec.and_allOnes] at op

/-- Settles O38: an accepted word is the word of an operation, which matches that operation's row; a word that matches a
row is such a word; and its OP names the row. -/
theorem decoderAcceptsExactlyTheTable : Obligations.DecoderAcceptsExactlyTheTable := by
  have ownRow {w : Word} {i : Instr} (h : decode w = .ok i) : w &&& i.encodingRow.mask = i.encodingRow.pattern :=
    decode_eq_ok_iff_encode_eq.mp h ▸ encodesItsRow i
  refine ⟨fun w => ⟨?accepted, ?matched⟩, fun w i h => ⟨encodingRow_mem_encodingTable i, ownRow h⟩,
    fun w r q memR memQ hr hq => ?oneRow⟩
  case accepted =>
    rintro ⟨i, h⟩
    exact ⟨_, encodingRow_mem_encodingTable i, ownRow h⟩
  case matched =>
    rintro ⟨r, mem, h⟩
    obtain ⟨i, hi⟩ := exists_encode_eq_of_match mem h
    exact ⟨i, decode_eq_ok_iff_encode_eq.mpr hi⟩
  case oneRow =>
    exact eq_of_opField_pattern_eq r memR q memQ ((opField_of_match memR hr).symm.trans (opField_of_match memQ hq))

/-! ### The reserved words (30_encoding.md R80) -/

/-- A word whose OP is 0x0, 0xE or 0xF. -/
theorem decode_of_unassigned {w : Word} (h : opAssigned w = false) : decode w = .error .op := by
  simp [decode, h]

/-- A word with an assigned OP and bits 11:10 not 0. -/
theorem decode_of_reservedBits {w : Word} (assigned : opAssigned w = true) (h : resField w ≠ 0) :
    decode w = .error .bits11to10 := by
  rw [decode, if_pos assigned, if_neg h]

/-- A word with an assigned OP and bits 11:10 at 0 is read by its OP. -/
theorem decode_of_assigned {w : Word} (assigned : opAssigned w = true) (h : resField w = 0) :
    decode w = decodeOp w := by
  rw [decode, if_pos assigned, if_pos h]

/-- OP is assigned when it lies in 0x1 to 0xD. -/
theorem opAssigned_iff {w : Word} : opAssigned w = true ↔ 1 ≤ (opField w).toNat ∧ (opField w).toNat ≤ 0xD := by
  simp [opAssigned]

/-- OFF not 0 is refused by every assigned OP but those of ADWA and ADWB. -/
theorem decodeOp_of_off {w : Word} (low : 1 ≤ (opField w).toNat) (high : (opField w).toNat ≤ 0xD)
    (notAdwa : (opField w).toNat ≠ 0x8) (notAdwb : (opField w).toNat ≠ 0x9) (off : offField w ≠ 0) :
    decodeOp w = .error .off := by
  have byte (k : Byte → Instr) : decodeByteOperand w k = .error .off := if_neg off
  have bare (i : Instr) : decodeNoOperand w i = .error .off := if_neg off
  unfold decodeOp
  split
  case h_8 hop => exact absurd hop notAdwa
  case h_9 hop => exact absurd hop notAdwb
  case h_14 =>
    simp only [imp_false] at *
    omega
  case h_1 | h_2 | h_6 | h_7 | h_10 | h_11 => exact byte _
  case h_3 | h_4 | h_5 | h_12 | h_13 => exact bare _

/-- DATA not 0 is refused by every operation without operand. -/
theorem decodeOp_of_data {w : Word}
    (noOperand : (opField w).toNat = 0x3 ∨ (opField w).toNat = 0x4 ∨ (opField w).toNat = 0x5 ∨
      (opField w).toNat = 0xC ∨ (opField w).toNat = 0xD)
    (off : offField w = 0) (data : dataField w ≠ 0) : decodeOp w = .error .data := by
  have bare (i : Instr) : decodeNoOperand w i = .error .data := by rw [decodeNoOperand, if_pos off, if_neg data]
  obtain hop | hop | hop | hop | hop := noOperand <;> simp only [decodeOp, hop] <;> exact bare _

/-- OFF[1] = 1 is refused by ADWB. -/
theorem decodeOp_of_adwbOff1 {w : Word} (hop : (opField w).toNat = 0x9) (off : (offField w).getLsbD 1 = true) :
    decodeOp w = .error .adwbOff1 := by
  simp only [decodeOp, hop, decodeAdwb, if_pos off]

/-- Settles O39: group by group. OP is tested first, then bits 11:10, then the operands as the OP takes them. -/
theorem reservedWordsAreRefusedByGroup : Obligations.ReservedWordsAreRefusedByGroup := by
  rintro w _ _ _ rfl rfl rfl
  have read (low : 1 ≤ (opField w).toNat) (high : (opField w).toNat ≤ 0xD) (clear : resField w = 0) :
      decode w = decodeOp w := decode_of_assigned (opAssigned_iff.mpr ⟨low, high⟩) clear
  refine ⟨fun unassigned => ?op, fun ⟨low, high, set⟩ => ?bits, fun ⟨low, high, clear, notAdwa, notAdwb, off⟩ => ?off,
    fun ⟨adwb, clear, off⟩ => ?adwb, fun ⟨noOperand, clear, off, data⟩ => ?data⟩
  case op =>
    refine decode_of_unassigned (Bool.eq_false_iff.mpr fun assigned => ?_)
    obtain ⟨low, high⟩ := opAssigned_iff.mp assigned
    change (opField w).toNat = 0x0 ∨ (opField w).toNat = 0xE ∨ (opField w).toNat = 0xF at unassigned
    omega
  case bits => exact decode_of_reservedBits (opAssigned_iff.mpr ⟨low, high⟩) set
  case off => exact (read low high clear).trans (decodeOp_of_off low high notAdwa notAdwb off)
  case adwb =>
    change (opField w).toNat = 0x9 at adwb
    exact (read (by omega) (by omega) clear).trans (decodeOp_of_adwbOff1 adwb off)
  case data =>
    change (opField w).toNat = 0x3 ∨ (opField w).toNat = 0x4 ∨ (opField w).toNat = 0x5 ∨ (opField w).toNat = 0xC ∨
      (opField w).toNat = 0xD at noOperand
    exact (read (by omega) (by omega) clear).trans (decodeOp_of_data noOperand off data)

/-! ### Trace lines and the programs' words (30_encoding.md R83, 95_test_vectors.md) -/

/-- A byte's number is a byte operand of a trace line. -/
@[simp] theorem traceByte_toNat (v : Byte) : traceByte v.toNat = some v := by
  rw [traceByte, if_pos v.isLt, BitVec.ofNat_toNat, BitVec.setWidth_eq]

/-- Settles O41: each mnemonic is read back with its operands, which are in range by their widths. -/
theorem traceLinesReadBack : Obligations.TraceLinesReadBack := by
  intro i
  cases i with
  | rp1 | rp2 | smp | rcl | rst => rfl
  | wp1 | wp2 | pbw | paw | cmd | ack => simp [toTraceLine, ofTraceLine]
  | adwa off | adwb off => simp [toTraceLine, ofTraceLine, off.isLt]

/-- Settles O40: nine closed words. -/
theorem programVectorWordsDecode : Obligations.ProgramVectorWordsDecode :=
  ⟨rfl, rfl, rfl, rfl, rfl, rfl, rfl, rfl, rfl⟩

end Sys2Proof.Laws

/-! PROOFS. The remaining statements of 40_control_bus_latch.md: how many accesses a sequence of writePort2 values
commits (R108, 95_test_vectors.md L1.1), the broadcast data edge (R109), the case where both decode sources agree
(70_reset_and_hazards.md R234), and the two reads (R106, R107). -/

namespace Sys2Proof.Machine

/-! ### The number of accesses (40_control_bus_latch.md R108) -/

/-- Every event of an edge is a PSG access. -/
theorem isPsgAccess_of_mem_commitAccess {b : Board} {n : Nat} {r : Registers} {v : Byte} {e : Event}
    (h : e ∈ (commitAccess b n r v).2) : isPsgAccess e = true := by
  rw [commitAccess_events] at h
  split at h
  case isTrue =>
    obtain ⟨t, -, rfl⟩ := List.mem_map.mp h
    unfold accessEvent
    split <;> rfl
  case isFalse => cases h

/-- As many PSGs are selected as select bits are set. -/
theorem length_selectedPsgs (b : Board) (d : Byte) :
    (selectedPsgs b d).length = (sel b d .m).toNat + (sel b d .l).toNat := by
  unfold selectedPsgs
  cases sel b d .m <;> cases sel b d .l <;> rfl

/-- A write of `port2` emits one event for each select bit set at an edge, in whichever order. -/
theorem length_commitAccess_events (b : Board) (n : Nat) (r : Registers) (v : Byte) :
    (commitAccess b n r v).2.length = edgeAccesses b r.port2 v := by
  rw [commitAccess_events, edgeAccesses]
  split
  case isTrue => rw [List.length_map, (inFreeOrder_perm ..).length_eq, length_selectedPsgs]
  case isFalse => rfl

/-- Settles O7, by induction on the values: each emits the accesses of its own edge and stores the value that the next
edge is judged against. -/
theorem psgAccessCountIsSumOverEdges : Obligations.PsgAccessCountIsSumOverEdges := by
  intro vs
  induction vs with
  | nil => exact fun s => ⟨s, [], rfl, by simp, rfl⟩
  | cons v vs ih =>
    intro s
    obtain ⟨u, evs, run, accesses, count⟩ := ih (s.after
      { (commitAccess s.board s.opIndex s.regs v).1 with port2 := v } (commitAccess s.board s.opIndex s.regs v).2 none)
    refine ⟨u, _, runOps_cons_eq_some.mpr ⟨_, evs, exec_wp2 v s, run, rfl⟩, fun e he => ?_, ?_⟩
    · rcases List.mem_append.mp he with first | later
      · exact isPsgAccess_of_mem_commitAccess first
      · exact accesses e later
    · rw [List.length_append, State.after_out, length_commitAccess_events, count]
      rfl

/-- With one select bit at every edge, each strict transition is one access. -/
theorem sumEdgeAccesses_eq_strictFalls {b : Board} {prev : Byte} {vs : List Byte} (h : oneSelectPerEdge b prev vs) :
    sumEdgeAccesses b prev vs = strictFalls prev vs := by
  induction vs generalizing prev with
  | nil => rfl
  | cons v vs ih =>
    obtain ⟨oneSelect, rest⟩ := h
    have edge : edgeAccesses b prev v = (prev.getLsbD 0 && !v.getLsbD 0).toNat := by
      cases hf : fall prev v with
      | false =>
        rw [edgeAccesses, hf, show (prev.getLsbD 0 && !v.getLsbD 0) = false from hf]
        rfl
      | true =>
        have distinct := oneSelect (fall_iff.mp hf)
        rw [edgeAccesses, if_pos hf, show (prev.getLsbD 0 && !v.getLsbD 0) = true from hf]
        revert distinct
        cases sel b (decodeSource b prev v) .m <;> cases sel b (decodeSource b prev v) .l <;> simp
    rw [sumEdgeAccesses, strictFalls, edge, ih rest]

/-- Settles O8: all the events of the run are accesses, and there are as many as strict transitions. -/
theorem oneSelectPerEdgeCountsStrictFalls : Obligations.OneSelectPerEdgeCountsStrictFalls := by
  intro vs s oneSelect
  obtain ⟨u, evs, run, accesses, count⟩ := psgAccessCountIsSumOverEdges vs s
  refine ⟨u, evs, run, ?_⟩
  rw [List.countP_eq_length.mpr accesses, count, sumEdgeAccesses_eq_strictFalls oneSelect]

/-! ### The broadcast data edge (40_control_bus_latch.md R109) -/

/-- A data edge leaves the record for `port2` to be stored in. -/
theorem commitAccess_regs_of_dataPhase {b : Board} {r : Registers} {v : Byte}
    (phase : ph (decodeSource b r.port2 v) = false) (n : Nat) : (commitAccess b n r v).1 = r := by
  rw [commitAccess_regs]
  simp [phase]

/-- With both select bits set, both PSGs are selected. -/
theorem selectedPsgs_of_both {b : Board} {d : Byte} (both : ∀ p : Psg, sel b d p = true) :
    selectedPsgs b d = [.m, .l] := by
  simp [selectedPsgs, both]

/-- Settles O4: both PSGs are accessed in one of the two orders, each with a data write. -/
theorem broadcastDataEdgeWritesBothPsgs : Obligations.BroadcastDataEdgeWritesBothPsgs := by
  intro v s edge phase both
  refine ⟨(commitAccess s.board s.opIndex s.regs v).2, ?record, ?order⟩
  case record => rw [exec_wp2, commitAccess_regs_of_dataPhase phase]
  case order =>
    have event (t : Psg) : accessEvent (decodeSource s.board s.regs.port2 v) s.regs t =
        .psgData t (s.regs.psgAddr t) s.regs.port1 := by simp [accessEvent, phase]
    rw [commitAccess_events, if_pos edge, selectedPsgs_of_both both]
    rcases inFreeOrder_cases s.opIndex [Psg.m, Psg.l] with order | order
    · exact .inl (by simp [order, event])
    · exact .inr (by simp [order, event])

/-! ### Control bytes with the same phase and selects (30_encoding.md R70) -/

/-- Two control bytes that an edge and a read decode alike: they agree on the phase and on both select bits. -/
def SameControl (b : Board) (c d : Byte) : Prop := ph d = ph c ∧ ∀ p : Psg, sel b d p = sel b c p

/-- They select the same PSGs. -/
theorem SameControl.selectedPsgs_eq {b : Board} {c d : Byte} (same : SameControl b c d) :
    selectedPsgs b d = selectedPsgs b c := by
  unfold selectedPsgs
  rw [same.2 .m, same.2 .l]

/-- They make the same access of a PSG. -/
theorem SameControl.accessPsgs_eq {b : Board} {c d : Byte} (same : SameControl b c d) (r : Registers)
    (ts : List Psg) : accessPsgs d r ts = accessPsgs c r ts := by
  cases phase : ph c with
  | true => rw [accessPsgs_select phase, accessPsgs_select (same.1.trans phase)]
  | false => rw [accessPsgs_data phase, accessPsgs_data (same.1.trans phase)]

/-- The state on the same board but for `LATCH_DECODE_SOURCE`. -/
def State.withDecodeSource (s : State) (d : DecodeSource) : State :=
  { s with board := { s.board with latchDecodeSource := d } }

/-- Where the written value decodes like the stored one, the edge commits the same under both settings. -/
theorem commitAccess_decodeSource_irrelevant {s : State} {v : Byte} (same : SameControl s.board s.regs.port2 v)
    (n : Nat) :
    commitAccess (s.withDecodeSource .previous).board n s.regs v =
      commitAccess (s.withDecodeSource .new).board n s.regs v := by
  cases edge : fall s.regs.port2 v with
  | false => rw [commitAccess_noEdge edge, commitAccess_noEdge edge]
  | true =>
    rw [commitAccess_edge edge, commitAccess_edge edge]
    change accessPsgs s.regs.port2 s.regs (inFreeOrder n (selectedPsgs s.board s.regs.port2)) =
      accessPsgs v s.regs (inFreeOrder n (selectedPsgs s.board v))
    rw [same.selectedPsgs_eq, same.accessPsgs_eq]

/-- Settles O9: the two boards commit the same, and store the same value after it. -/
theorem decodeSourceIrrelevantUnderDiscipline : Obligations.DecodeSourceIrrelevantUnderDiscipline := by
  intro v s phase selects
  have commits := commitAccess_decodeSource_irrelevant (s := s) ⟨phase, selects⟩ s.opIndex
  exact ⟨_, _, exec_wp2 v (s.withDecodeSource .new), exec_wp2 v (s.withDecodeSource .previous),
    congrArg (fun done : Registers × List Event => { done.1 with port2 := v }) commits, congrArg Prod.snd commits, rfl⟩

/-! ### The two reads (40_control_bus_latch.md R106, R107) -/

/-- A read whose outcome the policy does not leave free reads its target (40_control_bus_latch.md R106). -/
theorem readPort1Value_of_target {b : Board} {r : Registers} {t : Psg} (notFree : readIsFree b r.port2 = false)
    (target : readTarget b r.port2 = some t) (n : Nat) : readPort1Value b n r = readPsg n r t := by
  simp [readPort1Value, notFree, target]

/-- Settles O11: there is no target, and the read is not free. -/
theorem readPort1WithNoSelectReturnsFF : Obligations.ReadPort1WithNoSelectReturnsFF := by
  intro s (noM : sel s.board s.regs.port2 .m = false) (noL : sel s.board s.regs.port2 .l = false)
  have value : readPort1Value s.board s.opIndex s.regs = (0xFF, []) := by
    simp [readPort1Value, readIsFree, readTarget, noM, noL]
  rw [exec_rp1, value]

/-- A read is not free under M_PRIORITY, nor with a select bit clear. -/
theorem readIsFree_eq_false {b : Board} {p2 : Byte}
    (h : b.readBothPolicy = .mPriority ∨ sel b p2 .m = false ∨ sel b p2 .l = false) : readIsFree b p2 = false := by
  rcases h with policy | noM | noL
  · simp [readIsFree, policy]
  · simp [readIsFree, noM]
  · simp [readIsFree, noL]

/-- M is the target where it is selected. -/
theorem readTarget_m {b : Board} {p2 : Byte} (isM : sel b p2 .m = true) : readTarget b p2 = some .m :=
  if_pos isM

/-- L is the target where it alone is selected. -/
theorem readTarget_l {b : Board} {p2 : Byte} (noM : sel b p2 .m = false) (isL : sel b p2 .l = true) :
    readTarget b p2 = some .l := by
  simp [readTarget, noM, isL]

/-- Settles O12: the read is not free, and its target is M where M is selected, L otherwise. -/
theorem readPort1ReadsTheSelectedPsg : Obligations.ReadPort1ReadsTheSelectedPsg := by
  intro s t selected
  have readsTarget : readPort1Value s.board s.opIndex s.regs = readPsg s.opIndex s.regs t := by
    rcases selected with ⟨rfl, isM, priority⟩ | ⟨rfl, noM, isL⟩
    · exact readPort1Value_of_target (readIsFree_eq_false (priority.imp_right .inr)) (readTarget_m isM) _
    · exact readPort1Value_of_target (readIsFree_eq_false (.inr (.inl noM))) (readTarget_l noM isL) _
  exact ⟨(readPsg s.opIndex s.regs t).1, by rw [exec_rp1, readsTarget]; rfl⟩

/-- Settles O13: the read is free, and names no PSG. -/
theorem readPort1WithBothSelectsUnderAny : Obligations.ReadPort1WithBothSelectsUnderAny := by
  intro s policy (isM : sel s.board s.regs.port2 .m = true) (isL : sel s.board s.regs.port2 .l = true)
  have value : readPort1Value s.board s.opIndex s.regs = (Config.bothSelectedRead s.opIndex, []) := by
    simp [readPort1Value, readIsFree, isM, isL, policy]
  exact ⟨_, by rw [exec_rp1, value]⟩

/-- Settles O14. -/
theorem readPort2ReturnsTheConstantAndLogs : Obligations.ReadPort2ReturnsTheConstantAndLogs :=
  ⟨rfl, exec_rp2⟩

end Sys2Proof.Machine

/-! PROOFS. The statements on the step and its inputs: a word (30_encoding.md) and a bus access (20_memory.md R50, R51)
reach their operation, stepping through words is the run of their operations (R58), the board is fixed (00_scope.md
R5), and no step breaks the consistency of the decoders' drive registers (10_state.md R25). -/

namespace Sys2Proof.Machine

/-! ### One step (00_scope.md R9) -/

/-- On a board with the required collaborators a step delivers the next input. -/
theorem step_of_pending {s : State} {x : Input} {rest : List Input} (board : s.board.hasCollaborators = true)
    (next : s.pending = x :: rest) : step s = deliver x { s with pending := rest } := by
  simp [step, board, takeInput, next]

/-- A step on a word that decodes runs its operation. -/
theorem step_of_word {s : State} {w : Word} {rest : List Input} {i : Instr} (board : s.board.hasCollaborators = true)
    (next : s.pending = .word w :: rest) (h : decode w = .ok i) : step s = exec i { s with pending := rest } :=
  (step_of_pending board next).trans (deliverWord_of_decode h _)

/-- Settles O44: a word is delivered to the operation it decodes to, or refused with the decoder's reason. -/
theorem stepRunsTheDecodedOperation : Obligations.StepRunsTheDecodedOperation :=
  ⟨fun _ _ _ _ => step_of_word,
    fun _ _ _ _ board next reserved => (step_of_pending board next).trans (deliverWord_of_reserved reserved _)⟩

/-- Settles O45. -/
theorem stepWithoutInputIsIdle : Obligations.StepWithoutInputIsIdle := by
  intro s board noInput
  simp [step, board, takeInput, noInput, idle]

/-! ### A placed word (log 11) -/

/-- Placing an operation's word wires the variant the operation exists on. -/
theorem wellFormed_boardForWord_encode (i : Instr) (b : Board) :
    i.wellFormed (boardForWord (encode i) b) = true := by
  unfold boardForWord
  rw [Laws.decode_encode]
  cases i <;> rfl

/-- Wiring a variant leaves the required collaborators. -/
theorem hasCollaborators_boardForWord (w : Word) (b : Board) :
    (boardForWord w b).hasCollaborators = b.hasCollaborators := by
  unfold boardForWord
  split <;> rfl

/-- Settles O46: the placed word is the next input, on the board on which its operation exists. -/
theorem placedWordRunsAtTheNextStep : Obligations.PlacedWordRunsAtTheNextStep := by
  intro i s board
  have placed : s.withFetchWord 16 (encode i).toNat = placeWord (encode i) s := by
    rw [State.withFetchWord, Nat.mod_eq_of_lt (encode i).isLt, BitVec.ofNat_toNat, BitVec.setWidth_eq]
  have wired : i.wellFormed (boardForWord (encode i) s.board) = true := wellFormed_boardForWord_encode i s.board
  obtain ⟨t, completes⟩ :=
    exec_completes_of_wellFormed (s := { s with board := boardForWord (encode i) s.board }) wired
  refine ⟨_, t, wired, ?_, completes⟩
  rw [placed]
  exact step_of_word (s := placeWord (encode i) s) ((hasCollaborators_boardForWord ..).trans board) rfl
    (Laws.decode_encode i)

/-! ### Bus accesses (20_memory.md R50, R51) -/

/-- A write within the ADPCM window is the feed's, at its offset above the base. -/
theorem decodeBus_adpcm {b : Board} {off : Nat} (inWindow : off < adpcmWindow b) (v : Byte) :
    decodeBus b ⟨.mcuMemory, b.addresses.adpcmBase + off, some v⟩ = some (adpcmWriteAt b off v) := by
  have range : b.addresses.adpcmBase ≤ b.addresses.adpcmBase + off ∧
      b.addresses.adpcmBase + off < b.addresses.adpcmBase + adpcmWindow b := by omega
  rw [decodeBus, decodeMemoryAccess, if_pos range, Nat.add_sub_cancel_left]

/-- The window holds at most the four addresses of a 2-bit offset. -/
theorem adpcmWindow_le (b : Board) : adpcmWindow b ≤ 4 := by
  unfold adpcmWindow
  split <;> decide

/-- A write of the acknowledge address is the acknowledge, where it lies outside the window. -/
theorem decodeBus_ack {b : Board} (v : Byte)
    (outside : b.addresses.ack < b.addresses.adpcmBase ∨ b.addresses.adpcmBase + 4 ≤ b.addresses.ack) :
    decodeBus b ⟨.mcuMemory, b.addresses.ack, some v⟩ = some (.ack v) := by
  have notFeed : ¬(b.addresses.adpcmBase ≤ b.addresses.ack ∧
      b.addresses.ack < b.addresses.adpcmBase + adpcmWindow b) := by
    have := adpcmWindow_le b
    omega
  rw [decodeBus, decodeMemoryAccess, if_neg notFeed, if_pos rfl]

/-- The two ports, written and read, where their addresses differ. -/
theorem decodeBus_ports {b : Board} (v : Byte) (distinct : b.addresses.port1 ≠ b.addresses.port2) :
    decodeBus b ⟨.mcuPort, b.addresses.port1, some v⟩ = some (.wp1 v) ∧
      decodeBus b ⟨.mcuPort, b.addresses.port2, some v⟩ = some (.wp2 v) ∧
      decodeBus b ⟨.mcuPort, b.addresses.port1, none⟩ = some .rp1 ∧
      decodeBus b ⟨.mcuPort, b.addresses.port2, none⟩ = some .rp2 := by
  simp [decodeBus, decodePortAccess, distinct.symm]

/-- The feed of a variant A board. -/
theorem decodeBus_adwa {b : Board} (variant : b.adpcmVariant = .a) (off : BitVec 2) (v : Byte) :
    decodeBus b ⟨.mcuMemory, b.addresses.adpcmBase + off.toNat, some v⟩ = some (.adwa off v) := by
  rw [decodeBus_adpcm (by rw [adpcmWindow, variant]; exact off.isLt)]
  simp [adpcmWriteAt, variant]

/-- The feed of a variant B board. -/
theorem decodeBus_adwb {b : Board} (variant : b.adpcmVariant = .b) (off : BitVec 1) (v : Byte) :
    decodeBus b ⟨.mcuMemory, b.addresses.adpcmBase + off.toNat, some v⟩ = some (.adwb off v) := by
  rw [decodeBus_adpcm (by rw [adpcmWindow, variant]; exact off.isLt)]
  simp [adpcmWriteAt, variant]

/-- An access that addresses an entry point is delivered to its operation. -/
theorem deliverBus_of_decode {x : BusAccess} {s : State} {i : Instr} (h : decodeBus s.board x = some i) :
    deliverBus x s = exec i s := by
  rw [deliverBus, h]

/-- Settles O47: space by space, and the step on such an access. -/
theorem busAccessesReachTheirEntryPoints : Obligations.BusAccessesReachTheirEntryPoints := by
  refine ⟨fun _ v => decodeBus_ports v, fun _ off v variant => decodeBus_adwa variant off v,
    fun _ off v variant => decodeBus_adwb variant off v, fun _ v => decodeBus_ack v,
    fun _ _ => ⟨if_pos rfl, if_pos rfl⟩, fun x rest i s board next entry => ?_⟩
  exact (step_of_pending board next).trans (deliverBus_of_decode (s := { s with pending := rest }) entry)

/-! ### Runs of steps -/

/-- A run of one step more that completes: the first step, and the run of the rest. -/
theorem run_succ_eq_next_iff {M : Host.Core} {n : Nat} {s u : M.State} :
    M.run (n + 1) s = .next u ↔ ∃ t : M.State, M.step s = .next t ∧ M.run n t = .next u := by
  rw [Host.Core.run]
  cases M.step s <;> simp

/-- A run of one step more that is refused: at the first step, or after it. -/
theorem run_succ_eq_refused_iff {M : Host.Core} {n : Nat} {s : M.State} {r : M.Refusal} :
    M.run (n + 1) s = .refused r ↔
      M.step s = .refused r ∨ ∃ t : M.State, M.step s = .next t ∧ M.run n t = .refused r := by
  rw [Host.Core.run]
  cases M.step s <;> simp

/-- A property that every step keeps is kept by every run of steps. -/
theorem run_induction {P : State → Prop} (keeps : ∀ s t : State, P s → step s = .next t → P t) {n : Nat}
    {s t : State} (start : P s) (h : Host.Core.run Sys2Proof.core n s = .next t) : P t := by
  induction n generalizing s with
  | zero =>
    cases h
    exact start
  | succ n ih =>
    obtain ⟨a, first, rest⟩ := run_succ_eq_next_iff.mp h
    exact ih (keeps s a start first) rest

/-- No step changes the board: an operation leaves it, and so do an idle step and a restore. -/
theorem step_board {s t : State} (h : step s = .next t) : t.board = s.board := by
  obtain ⟨-, ⟨-, rfl⟩ | ⟨x, rest, i, -, run⟩ | ⟨r, rest, -, rfl⟩⟩ := step_cases h
  · rfl
  · exact (exec_board run :)
  · rfl

/-- Settles O57. -/
theorem boardNeverChanges : Obligations.BoardNeverChanges :=
  fun _ s _ h =>
    run_induction (P := fun t => t.board = s.board) (fun _ _ held first => (step_board first).trans held) rfl h

/-! ### Stepping through words (20_memory.md R58) -/

/-- An operation does not look at the inputs still to come. -/
theorem exec_with_pending {i : Instr} {s t : State} (h : exec i s = .next t) (p : List Input) :
    exec i { s with pending := p } = .next { t with pending := p } :=
  exec_cases (P := fun i t => exec i { s with pending := p } = .next { t with pending := p }) h
    (wp1 := fun v => exec_wp1 v _) (wp2 := fun v => exec_wp2 v _) (rp1 := exec_rp1 _) (rp2 := exec_rp2 _)
    (smp := exec_smp _) (pbw := fun b => exec_pbw b _) (paw := fun a => exec_paw a _)
    (adwa := fun off v wired => exec_adwa_wired (s := { s with pending := p }) wired off v)
    (adwb := fun off v wired => exec_adwb_wired (s := { s with pending := p }) wired off v)
    (request := fun _ hc => exec_cmd_request hc _) (store := fun _ hc => exec_cmd_store hc _)
    (ack := fun v => exec_ack v _) (rcl := exec_rcl _) (rst := exec_rst _)

/-- Settles O56, by induction on the operations: the first word is delivered to its operation, which leaves the words
after it in place. -/
theorem steppingWordsRunsTheOperations : Obligations.SteppingWordsRunsTheOperations := by
  intro is rest
  induction is with
  | nil =>
    intro s u evs _ h
    simp only [runOps_nil, Option.some.injEq, Prod.mk.injEq] at h
    obtain ⟨rfl, -⟩ := h
    rfl
  | cons i is ih =>
    intro s u evs board h
    obtain ⟨t, e, first, later, -⟩ := runOps_cons_eq_some.mp h
    have delivered : step { s with pending := .word (encode i) :: (is.map fun i => Input.word (encode i)) ++ rest } =
        exec i { s with pending := (is.map fun i => Input.word (encode i)) ++ rest } :=
      step_of_word (s := { s with pending := _ }) board rfl (Laws.decode_encode i)
    exact run_succ_eq_next_iff.mpr
      ⟨_, delivered.trans (exec_with_pending first _), ih t u e (exec_board first ▸ board) later⟩

/-! ### The decoders' drive registers (10_state.md R25, 42_psg_port_handlers.md R140) -/

/-- The reset values are consistent: no decoder is driven, and decoder 2's registers exist where it is present. -/
theorem decodersConsistent_resetRegisters (b : Board) : decodersConsistent b (resetRegisters b) := by
  refine ⟨rfl, fun absent => ?_, fun present => ⟨undrivenDecoder, ?_, rfl, rfl⟩⟩
  · simp [resetRegisters, absent]
  · simp [resetRegisters, present]

/-- A port-B byte drives mode and reset of each decoder together, decoder 2's mode by `SEC_MODE` and only where it is
present; where it is absent its registers stay absent. -/
theorem decodersConsistent_driveDecoders {b : Board} {r : Registers} (h : decodersConsistent b r) (v : Byte) :
    decodersConsistent b (driveDecoders b r v) := by
  obtain ⟨-, absentBefore, -⟩ := h
  refine ⟨rfl, fun absent => ?_, fun present => ⟨secondaryDrive b v, ?_, rfl, rfl⟩⟩
  · simp [absent, absentBefore absent]
  · simp [present]

/-- Consistency concerns the decoders' registers alone. -/
theorem decodersConsistent_congr {b : Board} {r q : Registers} (h : decodersConsistent b r)
    (same1 : q.decoder1 = r.decoder1) (same2 : q.decoder2 = r.decoder2) : decodersConsistent b q := by
  unfold decodersConsistent
  rw [same1, same2]
  exact h

/-- Every operation keeps the registers consistent: a port-B write and a reset drive them afresh, and no other operation
writes them. -/
theorem decodersConsistent_recordAfter {b : Board} {r : Registers} (h : decodersConsistent b r) (i : Instr) :
    decodersConsistent b (recordAfter b r i) := by
  by_cases isPbw : ∃ v, i = .pbw v
  case pos =>
    obtain ⟨v, rfl⟩ := isPbw
    exact decodersConsistent_driveDecoders h v
  case neg =>
    by_cases isRst : i = .rst
    case pos =>
      rw [isRst]
      exact decodersConsistent_resetRegisters b
    case neg =>
      obtain ⟨kept1, kept2⟩ := recordAfter_decoders_frame (not_exists.mp isPbw) isRst b r
      exact decodersConsistent_congr h kept1 kept2

/-- Settles O58: an operation keeps the invariant, an idle step changes no register, and a snapshot that is restored was
among the consistent ones; the inputs still to come are some of those before. -/
theorem decoderDriveStaysConsistent : Obligations.DecoderDriveStaysConsistent := by
  rintro s t ⟨regs, snapshots⟩ h
  obtain ⟨-, ⟨-, rfl⟩ | ⟨x, rest, i, next, run⟩ | ⟨r, rest, next, rfl⟩⟩ := step_cases h
  · exact ⟨regs, snapshots⟩
  · have later (q : Registers) (mem : .restore q ∈ rest) : decodersConsistent s.board q :=
      snapshots q (next ▸ List.mem_cons_of_mem x mem)
    rw [State.consistent, exec_board run, exec_pending run, exec_regs_eq_recordAfter run]
    exact ⟨decodersConsistent_recordAfter regs i, later⟩
  · exact ⟨snapshots r (next ▸ List.mem_cons_self), fun q mem => snapshots q (next ▸ List.mem_cons_of_mem _ mem)⟩

/-- After reset the registers are consistent, and no snapshot is waiting. -/
theorem State.consistent_resetOn (b : Board) : (State.resetOn b).consistent :=
  ⟨decodersConsistent_resetRegisters b, fun _ mem => absurd mem List.not_mem_nil⟩

/-- Settles O59. -/
theorem resetStateIsConsistent : Obligations.ResetStateIsConsistent :=
  ⟨State.consistent_resetOn, State.consistent_resetOn standardBoard⟩

/-! ### Snapshots (10_state.md R35) -/

/-- Settles O35: the snapshot is the record, and complete for the board. -/
theorem snapshotRestoresEveryField : Obligations.SnapshotRestoresEveryField := by
  intro s t sameBoard ownDecoder2
  have complete : snapshotComplete t.board (saveSnapshot s) = true := by
    rw [← sameBoard]
    exact beq_iff_eq.mpr ownDecoder2
  rw [restoreSnapshot, if_pos complete]
  rfl

end Sys2Proof.Machine

/-! PROOFS. The statement of 10_state.md R32 on the events as a whole: over a run without reset they tell a collaborator
the select latches, the decoders' registers, the interrupt line and the connected discrete lines. -/

namespace Sys2Proof.Machine

/-! ### Records with the same driven registers -/

theorem sameDriven.refl (b : Board) (r : Registers) : sameDriven b r r :=
  ⟨rfl, rfl, rfl, rfl, rfl, fun _ _ => rfl⟩

theorem sameDriven.trans {b : Board} {r q p : Registers} (h₁ : sameDriven b r q) (h₂ : sameDriven b q p) :
    sameDriven b r p := by
  obtain ⟨m₁, l₁, primary₁, secondary₁, irq₁, line₁⟩ := h₁
  obtain ⟨m₂, l₂, primary₂, secondary₂, irq₂, line₂⟩ := h₂
  exact ⟨m₁.trans m₂, l₁.trans l₂, primary₁.trans primary₂, secondary₁.trans secondary₂, irq₁.trans irq₂,
    fun i connected => (line₁ i connected).trans (line₂ i connected)⟩

/-- A line that is set reads back, and the others keep their level. -/
@[simp] theorem get_setLine (x : Lines) (i j : Line) (level : Bool) :
    (setLine x i level).get j = if j = i then level else x.get j := by
  cases i <;> cases j <;> rfl

/-- An event tells the same of records with the same driven registers. -/
theorem sameDriven.observe_congr {b : Board} {r q : Registers} (h : sameDriven b r q) (e : Event) :
    sameDriven b (observe r e) (observe q e) := by
  obtain ⟨m, l, primary, secondary, irq, line⟩ := h
  cases e with
  | psgAddr t v =>
    cases t with
    | m => exact ⟨rfl, l, primary, secondary, irq, line⟩
    | l => exact ⟨m, rfl, primary, secondary, irq, line⟩
  | decMode d v =>
    cases d with
    | primary => exact ⟨m, l, congrArg (driveMode · v) primary, secondary, irq, line⟩
    | secondary =>
      exact ⟨m, l, primary, by simp only [observe, secondary], irq, line⟩
  | decReset d level =>
    cases d with
    | primary => exact ⟨m, l, congrArg (driveReset · level) primary, secondary, irq, line⟩
    | secondary =>
      exact ⟨m, l, primary, by simp only [observe, secondary], irq, line⟩
  | irq level => exact ⟨m, l, primary, secondary, rfl, line⟩
  | line i level =>
    refine ⟨m, l, primary, secondary, irq, fun j connected => ?_⟩
    simp only [observe, get_setLine, line j connected]
  | psgData | psgRead | nmi | secClk | decData | logPort2Read => exact ⟨m, l, primary, secondary, irq, line⟩

/-- So does a list of events. -/
theorem sameDriven.foldl_observe {b : Board} {r q : Registers} (h : sameDriven b r q) (evs : List Event) :
    sameDriven b (evs.foldl observe r) (evs.foldl observe q) := by
  induction evs generalizing r q with
  | nil => exact h
  | cons e evs ih => exact ih (h.observe_congr e)

/-! ### Events that report what was driven -/

/-- The driven registers of `q` are those that the events make of `r`. -/
def Reports (b : Board) (r : Registers) (evs : List Event) (q : Registers) : Prop :=
  sameDriven b q (evs.foldl observe r)

/-- Events that make `q` of `r` report it. -/
theorem Reports.of_eq {b : Board} {r q : Registers} {evs : List Event} (h : evs.foldl observe r = q) :
    Reports b r evs q :=
  h ▸ sameDriven.refl b _

/-- What was driven first and what was driven after it are reported together. -/
theorem Reports.trans {b : Board} {r q p : Registers} {e₁ e₂ : List Event} (h₁ : Reports b r e₁ q)
    (h₂ : Reports b q e₂ p) : Reports b r (e₁ ++ e₂) p := by
  rw [Reports, List.foldl_append]
  exact sameDriven.trans h₂ (h₁.foldl_observe e₂)

/-- Events that drive no register tell nothing of one. -/
theorem foldl_observe_of_inert {evs : List Event} (inert : ∀ e ∈ evs, ∀ r : Registers, observe r e = r)
    (r : Registers) : evs.foldl observe r = r := by
  induction evs with
  | nil => rfl
  | cons e evs ih =>
    obtain ⟨first, rest⟩ := List.forall_mem_cons.mp inert
    rw [List.foldl_cons, first, ih rest]

/-- One access: a select sets its latch, and a data write sets nothing (40_control_bus_latch.md R104, R105). -/
theorem foldl_observe_accessPsg (d : Byte) (r : Registers) (t : Psg) :
    (accessPsg d r t).2.foldl observe r = (accessPsg d r t).1 := by
  cases phase : ph d with
  | true => rw [accessPsg_select phase]; rfl
  | false => rw [accessPsg_data phase]; rfl

/-- So it is for any accesses one after the other. -/
theorem foldl_observe_accessPsgs (d : Byte) (r : Registers) (ts : List Psg) :
    (accessPsgs d r ts).2.foldl observe r = (accessPsgs d r ts).1 := by
  induction ts generalizing r with
  | nil => rfl
  | cons t ts ih => simp only [accessPsgs, List.foldl_append, foldl_observe_accessPsg, ih]

/-- And for the accesses that a write of `port2` commits. -/
theorem foldl_observe_commitAccess (b : Board) (n : Nat) (r : Registers) (v : Byte) :
    (commitAccess b n r v).2.foldl observe r = (commitAccess b n r v).1 := by
  cases edge : fall r.port2 v with
  | true => rw [commitAccess_edge edge]; exact foldl_observe_accessPsgs ..
  | false => rw [commitAccess_noEdge edge]; rfl

/-- A read of port 1 drives nothing (40_control_bus_latch.md R106). -/
theorem foldl_observe_readPort1Value (b : Board) (n : Nat) (r : Registers) :
    (readPort1Value b n r).2.foldl observe r = r := by
  rcases readPort1Value_cases b n r with ⟨-, h⟩ | ⟨-, _, -, h⟩ | ⟨-, -, h⟩ <;> rw [h] <;> rfl

/-- A sample drives no register: the clock returns to its level, and NMI has none (10_state.md R27, R31). -/
theorem foldl_observe_samplePulses (b : Board) (r : Registers) : (samplePulses b).foldl observe r = r := by
  rw [samplePulses_eq_ite]
  split <;> rfl

/-- An ADPCM write drives no register (43_adpcm_feed.md R163). -/
theorem foldl_observe_feedDecoders (b : Board) (v : Byte) (ds : List Decoder) (r : Registers) :
    (feedDecoders b v ds).foldl observe r = r := by
  refine foldl_observe_of_inert (fun e mem q => ?_) r
  obtain ⟨_, -, -, rfl⟩ := mem_feedDecoders.mp mem
  rfl

/-- A port-B byte's events carry both inputs of each decoder that is present (42_psg_port_handlers.md R140). -/
theorem foldl_observe_driveDecodersEvents (b : Board) (r : Registers) (v : Byte) :
    (driveDecodersEvents b v).foldl observe r = driveDecoders b r v := by
  unfold driveDecodersEvents driveDecoders
  cases b.secondaryPresent <;> rfl

/-- The lines after one line's event: it has its bit of the port-A byte if the board connects it, and the others keep
their levels (42_psg_port_handlers.md R144, R145). -/
theorem foldl_observe_lineEvent (b : Board) (a : Byte) (i : Line) (r : Registers) :
    ∃ x : Lines, (lineEvent b a i).foldl observe r = { r with line := x } ∧
      ∀ j : Line, x.get j = if j = i ∧ b.linePresent.get i = true then lineBit a i else r.line.get j := by
  unfold lineEvent
  split
  case isTrue connected => exact ⟨setLine r.line i (lineBit a i), rfl, fun j => by simp [connected]⟩
  case isFalse absent => exact ⟨r.line, rfl, fun j => by simp [absent]⟩

/-- A port-A byte's events carry the level of every connected line. -/
theorem reports_lineEvents (b : Board) (r : Registers) (a : Byte) :
    Reports b r (lineEvents b a) { r with line := linesOf a } := by
  obtain ⟨x₁, first, bd⟩ := foldl_observe_lineEvent b a .bd r
  obtain ⟨x₂, second, sd⟩ := foldl_observe_lineEvent b a .sd { r with line := x₁ }
  obtain ⟨x₃, third, oh⟩ := foldl_observe_lineEvent b a .oh { r with line := x₂ }
  obtain ⟨x₄, fourth, ch⟩ := foldl_observe_lineEvent b a .ch { r with line := x₃ }
  have lines : (lineEvents b a).foldl observe r = { r with line := x₄ } := by
    rw [lineEvents, List.foldl_append, List.foldl_append, List.foldl_append, first, second, third, fourth]
  rw [Reports, lines]
  refine ⟨rfl, rfl, rfl, rfl, rfl, fun i connected => ?_⟩
  cases i <;> simp [bd, sd, oh, ch, connected]

/-- The driven registers do not include `port2`. -/
theorem Reports.storePort2 {b : Board} {r q : Registers} {evs : List Event} (h : Reports b r evs q) (v : Byte) :
    Reports b r evs { q with port2 := v } := h

/-- But for reset, which clears registers without an event (R230), the events of every operation report what it
drove. -/
theorem exec_reports {i : Instr} {s t : State} (h : exec i s = .next t) (notRst : i ≠ .rst) :
    Reports s.board s.regs t.out t.regs :=
  exec_cases (P := fun i t => i ≠ .rst → Reports s.board s.regs t.out t.regs) h
    (wp1 := fun _ _ => sameDriven.refl s.board s.regs)
    (wp2 := fun v _ => (Reports.of_eq (foldl_observe_commitAccess ..)).storePort2 v)
    (rp1 := fun _ => .of_eq (foldl_observe_readPort1Value ..))
    (rp2 := fun _ => .of_eq rfl)
    (smp := fun _ => .of_eq (foldl_observe_samplePulses ..))
    (pbw := fun _ _ => .of_eq (foldl_observe_driveDecodersEvents ..))
    (paw := fun _ _ => reports_lineEvents ..)
    (adwa := fun _ _ _ _ => .of_eq (foldl_observe_feedDecoders ..))
    (adwb := fun _ _ _ _ => .of_eq (foldl_observe_feedDecoders ..))
    (request := fun _ _ _ => .of_eq rfl)
    (store := fun _ _ _ => sameDriven.refl s.board s.regs)
    (ack := fun _ _ => .of_eq rfl) (rcl := fun _ => .of_eq rfl) (rst := fun notRst => absurd rfl notRst) notRst

/-- Settles O54, by induction on the operations: the events of the first report the record it left, and those of the
rest what they made of it. -/
theorem eventsReportTheDrivenRegisters : Obligations.EventsReportTheDrivenRegisters := by
  intro is
  induction is with
  | nil =>
    intro s u evs h _
    simp only [runOps_nil, Option.some.injEq, Prod.mk.injEq] at h
    obtain ⟨rfl, rfl⟩ := h
    exact sameDriven.refl ..
  | cons i is ih =>
    intro s u evs h noRst
    obtain ⟨t, e, first, rest, rfl⟩ := runOps_cons_eq_some.mp h
    have notRst : i ≠ .rst := (List.ne_of_not_mem_cons noRst).symm
    have later : Reports s.board t.regs e u.regs :=
      exec_board first ▸ ih t u e rest (List.not_mem_of_not_mem_cons noRst)
    exact (exec_reports first notRst).trans later

end Sys2Proof.Machine

/-! PROOFS. The statement of 30_encoding.md R81 on the ignored bits of `port2` (decision D24): a relational invariant of
two machines, kept by every operation, every input and every run of steps. -/

namespace Sys2Proof.Machine

/-! ### Bytes of `port2` with the same meaning (30_encoding.md R70) -/

/-- Two values of `port2` that differ at most in the bits without meaning: they agree on the strobe, the phase and both
select bits. -/
def SamePort2 (b : Board) (c d : Byte) : Prop := stb d = stb c ∧ SameControl b c d

theorem SamePort2.refl (b : Board) (c : Byte) : SamePort2 b c c := ⟨rfl, rfl, fun _ => rfl⟩

/-- They make an edge with the same values. -/
theorem SamePort2.fall_eq {b : Board} {c d : Byte} (same : SamePort2 b c d) (v : Byte) : fall d v = fall c v := by
  rw [fall, same.1, fall]

/-- An edge over either is decoded alike. -/
theorem SamePort2.sameControl_decodeSource {b : Board} {c d : Byte} (same : SamePort2 b c d) (v : Byte) :
    SameControl b (decodeSource b c v) (decodeSource b d v) := by
  unfold decodeSource
  split
  · exact (SamePort2.refl b v).2
  · exact same.2

/-- The accesses of an edge do not look at `port2` itself. -/
theorem accessPsgs_storePort2 (d : Byte) (r : Registers) (q : Byte) (ts : List Psg) :
    accessPsgs d { r with port2 := q } ts =
      ({ (accessPsgs d r ts).1 with port2 := q }, (accessPsgs d r ts).2) := by
  cases phase : ph d with
  | true => rw [accessPsgs_select phase, accessPsgs_select phase]
  | false =>
    rw [accessPsgs_data phase, accessPsgs_data phase]
    simp only [storePort2_psgAddr]

/-- A write over either commits the same. -/
theorem SamePort2.commitAccess_eq {b : Board} {r : Registers} {q : Byte} (same : SamePort2 b r.port2 q) (n : Nat)
    (v : Byte) :
    commitAccess b n { r with port2 := q } v =
      ({ (commitAccess b n r v).1 with port2 := q }, (commitAccess b n r v).2) := by
  cases edge : fall r.port2 v with
  | false => rw [commitAccess_noEdge edge, commitAccess_noEdge ((same.fall_eq v).trans edge)]
  | true =>
    have source := same.sameControl_decodeSource v
    rw [commitAccess_edge edge, commitAccess_edge ((same.fall_eq v).trans edge), source.selectedPsgs_eq,
      source.accessPsgs_eq, accessPsgs_storePort2]

/-- A read of port 1 looks at the select bits and the select latches alone. -/
theorem readPort1Value_congr {b : Board} {r q : Registers} (selects : ∀ p : Psg, sel b q.port2 p = sel b r.port2 p)
    (latches : ∀ p : Psg, q.psgAddr p = r.psgAddr p) (n : Nat) : readPort1Value b n q = readPort1Value b n r := by
  have free : readIsFree b q.port2 = readIsFree b r.port2 := by
    rw [readIsFree, selects, selects, readIsFree]
  have target : readTarget b q.port2 = readTarget b r.port2 := by
    rw [readTarget, selects, selects, readTarget]
  have read (t : Psg) : readPsg n q t = readPsg n r t := by
    rw [readPsg, latches, readPsg]
  simp only [readPort1Value, free, target, read]

/-! ### The invariant -/

/-- The state with another byte in `port2`. -/
def State.withPort2 (s : State) (q : Byte) : State := { s with regs := { s.regs with port2 := q } }

/-- The relation of the statement: another byte of the same meaning in `port2`, and nothing else. -/
theorem sameButIgnoredPort2Bits_iff {s t : State} :
    sameButIgnoredPort2Bits s t ↔ ∃ q : Byte, SamePort2 s.board s.regs.port2 q ∧ t = s.withPort2 q := by
  constructor
  · rintro ⟨rest, strobe, phase, selects⟩
    exact ⟨t.regs.port2, ⟨strobe, phase, selects⟩, rest⟩
  · rintro ⟨q, ⟨strobe, phase, selects⟩, rfl⟩
    exact ⟨rfl, strobe, phase, selects⟩

theorem sameButIgnoredPort2Bits.refl (s : State) : sameButIgnoredPort2Bits s s := ⟨rfl, rfl, rfl, fun _ => rfl⟩

/-- Two outcomes that nobody tells apart: next states that differ at most in the ignored bits, or the same refusal. -/
inductive OutcomesAgree : Host.Outcome State Fault Refusal → Host.Outcome State Fault Refusal → Prop where
  | next {s t : State} (same : sameButIgnoredPort2Bits s t) : OutcomesAgree (.next s) (.next t)
  | refused (r : Refusal) : OutcomesAgree (.refused r) (.refused r)

/-- Operations that emit and return the same, and leave the same record but for ignored bits of `port2`. -/
theorem outcomesAgree_after {s : State} {q q' : Byte} {r : Registers} (same : SamePort2 s.board r.port2 q')
    (evs : List Event) (res : Option Byte) :
    OutcomesAgree (.next (s.after r evs res)) (.next ((s.withPort2 q).after { r with port2 := q' } evs res)) :=
  .next (sameButIgnoredPort2Bits_iff.mpr ⟨q', same, rfl⟩)

/-- No operation tells the two apart: writePort2 takes the same access and stores its own value, readPort1 reads the
same PSG, and the others do not look at `port2`. -/
theorem exec_agrees {s : State} {q : Byte} (same : SamePort2 s.board s.regs.port2 q) (i : Instr) :
    OutcomesAgree (exec i s) (exec i (s.withPort2 q)) := by
  cases i with
  | wp1 v => exact outcomesAgree_after (r := { s.regs with port1 := v }) same _ _
  | wp2 v =>
    have commits : commitAccess (s.withPort2 q).board (s.withPort2 q).opIndex (s.withPort2 q).regs v = _ :=
      same.commitAccess_eq s.opIndex v
    rw [exec_wp2, exec_wp2, commits]
    exact outcomesAgree_after (r := { (commitAccess s.board s.opIndex s.regs v).1 with port2 := v }) (.refl _ v) _ _
  | rp1 =>
    have value : readPort1Value (s.withPort2 q).board (s.withPort2 q).opIndex (s.withPort2 q).regs = _ :=
      readPort1Value_congr (r := s.regs) same.2.2 (storePort2_psgAddr s.regs q) s.opIndex
    rw [exec_rp1, exec_rp1, value]
    exact outcomesAgree_after same _ _
  | rp2 | smp | rcl => exact outcomesAgree_after same _ _
  | pbw b => exact outcomesAgree_after (r := driveDecoders s.board s.regs b) same _ _
  | paw a => exact outcomesAgree_after (r := { s.regs with line := linesOf a }) same _ _
  | adwa off v =>
    cases variant : s.board.adpcmVariant with
    | a =>
      rw [exec_adwa_wired variant, exec_adwa_wired (s := s.withPort2 q) variant]
      exact outcomesAgree_after same _ _
    | b =>
      rw [exec_adwa_refused variant, exec_adwa_refused (s := s.withPort2 q) variant]
      exact .refused _
  | adwb off v =>
    cases variant : s.board.adpcmVariant with
    | a =>
      rw [exec_adwb_refused variant, exec_adwb_refused (s := s.withPort2 q) variant]
      exact .refused _
    | b =>
      rw [exec_adwb_wired variant, exec_adwb_wired (s := s.withPort2 q) variant]
      exact outcomesAgree_after same _ _
  | cmd c =>
    cases hc : cmdInt c with
    | true =>
      rw [exec_cmd_request hc, exec_cmd_request hc]
      exact outcomesAgree_after (r := { s.regs with irq := true }) same _ _
    | false =>
      rw [exec_cmd_store hc, exec_cmd_store hc]
      exact outcomesAgree_after (r := { s.regs with cmd := cmdVal c }) same _ _
  | ack v => exact outcomesAgree_after (r := { s.regs with irq := false }) same _ _
  | rst => exact outcomesAgree_after (r := resetRegisters s.board) (.refl ..) _ _

/-- No input does: a word and a bus access stand for the same operation on both, and a restore sets the whole record. -/
theorem deliver_agrees {s : State} {q : Byte} (same : SamePort2 s.board s.regs.port2 q) (x : Input) :
    OutcomesAgree (deliver x s) (deliver x (s.withPort2 q)) := by
  cases x with
  | word w =>
    simp only [deliver, deliverWord]
    split
    · exact exec_agrees same _
    · exact .refused _
  | bus a =>
    simp only [deliver, deliverBus, State.withPort2]
    split
    · exact exec_agrees same _
    · exact .refused _
  | restore r =>
    change OutcomesAgree (restoreSnapshot r s) (restoreSnapshot r s)
    rcases restoreSnapshot_cases r s with ⟨-, h⟩ | ⟨-, h⟩ <;> rw [h]
    · exact .next (.refl _)
    · exact .refused _

/-- No step does. -/
theorem step_agrees {s t : State} (h : sameButIgnoredPort2Bits s t) : OutcomesAgree (step s) (step t) := by
  obtain ⟨q, same, rfl⟩ := sameButIgnoredPort2Bits_iff.mp h
  cases board : s.board.hasCollaborators with
  | false =>
    rw [step_of_collaboratorMissing board, step_of_collaboratorMissing (s := s.withPort2 q) board]
    exact .refused _
  | true =>
    cases next : s.pending with
    | nil =>
      rw [stepWithoutInputIsIdle s board next, stepWithoutInputIsIdle (s.withPort2 q) board next]
      exact .next (sameButIgnoredPort2Bits_iff.mpr ⟨q, same, rfl⟩)
    | cons x rest =>
      rw [step_of_pending board next, step_of_pending (s := s.withPort2 q) board next]
      exact deliver_agrees (s := { s with pending := rest }) same x

/-- What one machine completes the other completes too, in a state that differs in ignored bits at most. -/
theorem OutcomesAgree.exists_next {o o' : Host.Outcome State Fault Refusal} {s : State} (h : OutcomesAgree o o')
    (ho : o = .next s) : ∃ t : State, o' = .next t ∧ sameButIgnoredPort2Bits s t := by
  subst ho
  cases h with
  | next same => exact ⟨_, rfl, same⟩

/-- What one machine refuses the other refuses too, for the same reason. -/
theorem OutcomesAgree.eq_refused {o o' : Host.Outcome State Fault Refusal} {r : Refusal} (h : OutcomesAgree o o')
    (ho : o = .refused r) : o' = .refused r := by
  subst ho
  cases h
  rfl

/-- Settles O43, by induction on the number of steps: the first step agrees, and so does the rest from where it ends. -/
theorem ignoredPort2BitsAreNeverObserved : Obligations.IgnoredPort2BitsAreNeverObserved := by
  intro n
  induction n with
  | zero =>
    refine fun s t same => ⟨fun s' h => ⟨t, rfl, ?_⟩, fun r h => by cases h⟩
    cases h
    exact same
  | succ n ih =>
    intro s t same
    have agree := step_agrees same
    refine ⟨fun s' h => ?completes, fun r h => ?refused⟩
    case completes =>
      obtain ⟨a, first, rest⟩ := run_succ_eq_next_iff.mp h
      obtain ⟨b, first', same'⟩ := agree.exists_next first
      obtain ⟨t', rest', same''⟩ := (ih a b same').1 s' rest
      exact ⟨t', run_succ_eq_next_iff.mpr ⟨b, first', rest'⟩, same''⟩
    case refused =>
      refine run_succ_eq_refused_iff.mpr ?_
      obtain first | ⟨a, first, rest⟩ := run_succ_eq_refused_iff.mp h
      · exact .inl (agree.eq_refused first)
      · obtain ⟨b, first', same'⟩ := agree.exists_next first
        exact .inr ⟨b, first', (ih a b same').2 r rest⟩

end Sys2Proof.Machine

/-! PROOFS. The statements of 20_memory.md on single registers and single operations: the one writer of each register
(R60), what an operation returns depends on (60_exceptions.md R213), repetition (R56), and the operations that write no
state. -/

namespace Sys2Proof.Machine

/-! ### One writer for each register (20_memory.md R60) -/

/-- A register, or any reading of the record, that lies in the part `p`: the part fixes it. -/
def HeldIn {α : Type} (p : RecordPart) (field : Registers → α) : Prop :=
  ∀ r q : Registers, field (r.withPart p q) = field q

/-- Another part holds nothing of it. -/
theorem HeldIn.frame {α : Type} {p p' : RecordPart} {field : Registers → α} (held : HeldIn p field) (other : p' ≠ p)
    (r q : Registers) : field (r.withPart p' q) = field r :=
  calc field (r.withPart p' q)
    _ = field ((r.withPart p' q).withPart p r) := by rw [← Registers.withPart_comm other.symm, Registers.withPart_self]
    _ = field r := held _ r

/-- The select latches lie in the bus latch. -/
theorem heldIn_psgAddr (t : Psg) : HeldIn .busLatch (Registers.psgAddr · t) := by
  cases t <;> exact fun _ _ => rfl

/-- But for reset, an operation that changes a register writes the part that holds it. -/
theorem writtenPart_of_changed {α : Type} {p : RecordPart} {field : Registers → α} (held : HeldIn p field)
    {i : Instr} {s t : State} (h : exec i s = .next t) (notRst : i ≠ .rst) (changed : field t.regs ≠ field s.regs) :
    writtenPart i = some p := by
  rw [exec_regs_eq_recordAfter h] at changed
  cases writes : writtenPart i with
  | none =>
    rw [recordAfter_of_writtenPart_none writes notRst] at changed
    exact absurd rfl changed
  | some p' =>
    by_contra other
    rw [(recordAfter_confinedTo writes s.board).frame s.regs] at changed
    exact changed (held.frame (fun same => other (congrArg some same)) _ _)

/-- So the agent that changes a register outside the request latch is the writer of its part. -/
theorem writer_of_changed {α : Type} {p : RecordPart} {field : Registers → α} (held : HeldIn p field)
    (notRequest : p ≠ .request) {g : Agent} {i : Instr} {s t : State} (invokes : mayInvoke s.board g i = true)
    (notHost : g ≠ .host) (h : exec i s = .next t) (changed : field t.regs ≠ field s.regs) :
    p.writer s.board = some g :=
  writer_of_writtenPart invokes (writtenPart_of_changed held h (ne_rst_of_mayInvoke notHost invokes) changed) notRequest

/-- A request is raised by the main CPU and cleared by the microcontroller (90_conflicts.md C3). -/
theorem request_writers {g : Agent} {i : Instr} {s t : State} (invokes : mayInvoke s.board g i = true)
    (writes : writtenPart i = some .request) (h : exec i s = .next t) :
    (t.regs.irq = true → g = .mainCpu) ∧ (t.regs.irq = false → g = .microcontroller) := by
  obtain ⟨v, rfl⟩ | ⟨c, rfl, hc⟩ := writtenPart_eq_request_iff.mp writes
  · have cleared : t.regs.irq = false := congrArg Registers.irq (exec_regs_eq_recordAfter h)
    exact ⟨fun raised => by simp [cleared] at raised, fun _ => of_decide_eq_true invokes⟩
  · have raised : t.regs.irq = true := by rw [exec_regs_eq_recordAfter h, recordAfter_request hc]
    exact ⟨fun _ => of_decide_eq_true invokes, fun cleared => by simp [raised] at cleared⟩

/-- Settles O50: a change of a register names the part, and the part its writer. The request latch is told apart by the
level it is left at. -/
theorem eachRegisterHasOneWriter : Obligations.EachRegisterHasOneWriter := by
  intro g i s t invokes notHost h
  have writer {α : Type} {p : RecordPart} {field : Registers → α} {a : Agent} (held : HeldIn p field)
      (notRequest : p ≠ .request) (ofPart : p.writer s.board = some a) (changed : field t.regs ≠ field s.regs) :
      g = a :=
    Option.some.inj ((writer_of_changed held notRequest invokes notHost h changed).symm.trans ofPart)
  have request (changed : t.regs.irq ≠ s.regs.irq) := request_writers invokes
    (writtenPart_of_changed (field := Registers.irq) (fun _ _ => rfl) h (ne_rst_of_mayInvoke notHost invokes) changed) h
  refine ⟨writer (p := .busLatch) (fun _ _ => rfl) nofun rfl, writer (p := .busLatch) (fun _ _ => rfl) nofun rfl,
    fun p => writer (heldIn_psgAddr p) nofun rfl, writer (p := .command) (fun _ _ => rfl) nofun rfl,
    fun clear raised => ?raised, fun raised clear => ?cleared, fun changed => ?decoders,
    writer (p := .lines) (fun _ _ => rfl) nofun rfl⟩
  case raised => exact (request (by simp [clear, raised])).1 raised
  case cleared => exact (request (by simp [clear, raised])).2 clear
  case decoders =>
    refine writer (p := .decoders) (field := fun r => (r.decoder1, r.decoder2)) (fun _ _ => rfl) nofun rfl
      fun same => ?_
    obtain ⟨same1, same2⟩ := Prod.ext_iff.mp same
    exact changed.elim (absurd same1) (absurd same2)

/-! ### What is read back (60_exceptions.md R213) -/

/-- The byte an operation that completes returns. -/
def returnedByte (b : Board) (n : Nat) (r : Registers) : Instr → Option Byte
  | .rp1 => some (readPort1Value b n r).1
  | .rp2 => some b.port2ReadValue
  | .rcl => some (zext8 r.cmd)
  | .wp1 _ | .wp2 _ | .smp | .pbw _ | .paw _ | .adwa _ _ | .adwb _ _ | .cmd _ | .ack _ | .rst => none

/-- `returnedByte` is what each operation of the model returns. -/
theorem exec_result_eq_returnedByte {i : Instr} {s t : State} (h : exec i s = .next t) :
    t.result = returnedByte s.board s.opIndex s.regs i :=
  exec_cases (P := fun i t => t.result = returnedByte s.board s.opIndex s.regs i) h
    (wp1 := fun _ => rfl) (wp2 := fun _ => rfl) (rp1 := rfl) (rp2 := rfl) (smp := rfl) (pbw := fun _ => rfl)
    (paw := fun _ => rfl) (adwa := fun _ _ _ => rfl) (adwb := fun _ _ _ => rfl) (request := fun _ _ => rfl)
    (store := fun _ _ => rfl) (ack := fun _ => rfl) (rcl := rfl) (rst := rfl)

/-- Settles O51: RP1 looks at `port2` and the select latches, RCL at `cmd`, and no other operation returns a byte of the
record. -/
theorem onlyThreeRegistersReadBack : Obligations.OnlyThreeRegistersReadBack := by
  intro i s t u w board index port2 latchM latchL cmd hu hw
  have latches (p : Psg) : s.regs.psgAddr p = t.regs.psgAddr p := by
    cases p with
    | m => exact latchM
    | l => exact latchL
  have read : readPort1Value t.board t.opIndex s.regs = readPort1Value t.board t.opIndex t.regs :=
    readPort1Value_congr (fun p => by rw [port2]) latches _
  rw [exec_result_eq_returnedByte hu, exec_result_eq_returnedByte hw, board, index]
  cases i with
  | rp1 => rw [returnedByte, read, returnedByte]
  | rcl => rw [returnedByte, cmd, returnedByte]
  | wp1 | wp2 | rp2 | smp | pbw | paw | adwa | adwb | cmd | ack | rst => rfl

/-! ### Repetition (20_memory.md R56) -/

/-- A value over itself makes no edge. -/
theorem fall_self (v : Byte) : fall v v = false := Bool.and_not_self _

/-- Writing `port2` again with the value it holds does nothing to the record. -/
theorem recordAfter_wp2_wp2 (b : Board) (r : Registers) (v : Byte) :
    recordAfter b (recordAfter b r (.wp2 v)) (.wp2 v) = recordAfter b r (.wp2 v) := by
  have noEdge : fall (recordAfter b r (.wp2 v)).port2 v = false := fall_self v
  rw [recordAfter, commitAccess_noEdge noEdge]
  rfl

/-- What an operation makes of the record it makes no more of when repeated. -/
theorem recordAfter_recordAfter (b : Board) (r : Registers) (i : Instr) :
    recordAfter b (recordAfter b r i) i = recordAfter b r i := by
  cases i with
  | wp2 v => exact recordAfter_wp2_wp2 b r v
  | pbw v => exact driveDecoders_driveDecoders b r v
  | cmd c =>
    cases hc : cmdInt c with
    | true => simp only [recordAfter_request hc]
    | false => simp only [recordAfter_store hc]
  | wp1 | rp1 | rp2 | smp | paw | adwa | adwb | ack | rcl | rst => rfl

/-- An operation leaves the `port2` a writePort2 gave it. -/
theorem exec_wp2_port2 {v : Byte} {s t : State} (h : exec (.wp2 v) s = .next t) : t.regs.port2 = v :=
  congrArg Registers.port2 (exec_regs_eq_recordAfter h)

/-- Repeated, a writePort2 makes no edge and so emits nothing. -/
theorem exec_wp2_again_out {v : Byte} {s t u : State} (first : exec (.wp2 v) s = .next t)
    (second : exec (.wp2 v) t = .next u) : u.out = [] := by
  rw [exec_wp2_noEdge (exec_wp2_port2 first ▸ fall_self v)] at second
  cases second
  rfl

/-- What a port-B, port-A, command or acknowledge write emits: the board and the operand fix it. -/
def writeEvents (b : Board) : Instr → List Event
  | .pbw v => driveDecodersEvents b v
  | .paw a => lineEvents b a
  | .cmd c => if cmdInt c then [.irq true] else []
  | .ack _ => [.irq false]
  | _ => []

/-- `writeEvents` is what those four operations of the model emit. -/
theorem exec_out_eq_writeEvents {i : Instr} {v : Byte} (isWrite : i = .pbw v ∨ i = .paw v ∨ i = .cmd v ∨ i = .ack v)
    {s t : State} (h : exec i s = .next t) : t.out = writeEvents s.board i := by
  obtain rfl | rfl | rfl | rfl := isWrite
  · cases h
    rfl
  · cases h
    rfl
  · cases hc : cmdInt v with
    | true =>
      cases (exec_cmd_request hc s).symm.trans h
      simp [writeEvents, hc]
    | false =>
      cases (exec_cmd_store hc s).symm.trans h
      simp [writeEvents, hc]
  · cases h
    rfl

/-- Settles O52: the record is left as it is, and the events are those of the operand alone. -/
theorem repeatedOperationLeavesTheRecord : Obligations.RepeatedOperationLeavesTheRecord := by
  intro i s t u first second
  refine ⟨?record, ?silent, fun v isWrite => ?again⟩
  case record =>
    rw [exec_regs_eq_recordAfter second, exec_board first, exec_regs_eq_recordAfter first, recordAfter_recordAfter]
  case silent =>
    rintro v rfl
    exact exec_wp2_again_out first second
  case again =>
    rw [exec_out_eq_writeEvents isWrite second, exec_out_eq_writeEvents isWrite first, exec_board first]

/-! ### Operations that write no state -/

/-- A read, a feed and a sample leave the record. -/
theorem recordAfter_of_not_writesState {i : Instr} (h : writesState i = false) (b : Board) (r : Registers) :
    recordAfter b r i = r := by
  cases i with
  | rp1 | rp2 | smp | adwa | adwb | rcl => rfl
  | wp1 | wp2 | pbw | paw | cmd | ack | rst => cases h

/-- Taken out of a list of operations, they are not missed in the record. -/
theorem foldl_recordAfter_filter_writesState (b : Board) (is : List Instr) (r : Registers) :
    (is.filter writesState).foldl (recordAfter b) r = is.foldl (recordAfter b) r := by
  induction is generalizing r with
  | nil => rfl
  | cons i is ih =>
    cases hi : writesState i with
    | true => rw [List.filter_cons_of_pos hi, List.foldl_cons, List.foldl_cons, ih]
    | false =>
      rw [List.filter_cons_of_neg (Bool.eq_false_iff.mp hi), List.foldl_cons, recordAfter_of_not_writesState hi, ih]

/-- Settles O53: the operations that are left exist on the board as before, and make the same record. -/
theorem onlyWritingOperationsShapeTheRecord : Obligations.OnlyWritingOperationsShapeTheRecord := by
  intro is s u evs run
  have completes : ∀ i ∈ is, i.wellFormed s.board = true := runOps_completes_iff.mp ⟨u, evs, run⟩
  obtain ⟨w, evs', run'⟩ := runOps_completes_iff.mpr fun i hi => completes i (List.mem_of_mem_filter hi)
  refine ⟨w, evs', run', ?_⟩
  rw [runOps_regs_eq_foldl run', runOps_regs_eq_foldl run, foldl_recordAfter_filter_writesState]

end Sys2Proof.Machine

/-! PROOFS. The remaining statements on single operations and their events: the clock's level between steps (10_state.md
R27) and the two interrupt outputs (60_exceptions.md R206), portBWrite (R140), the refused ADPCM write (R80), the
acknowledge (R172), readCommand (R173), and reset (R230, R34). -/

namespace Sys2Proof.Machine

/-! ### The level of the secondary's clock input (10_state.md R27) -/

/-- The level after two lists is that of the second, starting from that of the first. -/
theorem clockLevel_append (l : Bool) (e₁ e₂ : List Event) :
    clockLevel l (e₁ ++ e₂) = clockLevel (clockLevel l e₁) e₂ := by
  induction e₁ generalizing l with
  | nil => rfl
  | cons e e₁ ih => cases e <;> exact ih _

/-- Only pulses move the level. -/
theorem clockLevel_pulses (l : Bool) (evs : List Event) : clockLevel l (pulses evs) = clockLevel l evs := by
  induction evs generalizing l with
  | nil => rfl
  | cons e evs ih => cases e <;> exact ih _

/-- The group of one sample returns the level to 0, or leaves it there. -/
theorem clockLevel_samplePulses (b : Board) : clockLevel false (samplePulses b) = false := by
  rw [samplePulses_eq_ite]
  split <;> rfl

/-- So do any number of groups. -/
theorem clockLevel_replicate_samplePulses (b : Board) (n : Nat) :
    clockLevel false (List.replicate n (samplePulses b)).flatten = false := by
  induction n with
  | zero => rfl
  | succ n ih => rw [List.replicate_succ, List.flatten_cons, clockLevel_append, clockLevel_samplePulses, ih]

/-- Settles O17: the pulses of a run are whole groups. -/
theorem clockLevelIsLowBetweenSteps : Obligations.ClockLevelIsLowBetweenSteps := by
  intro is s u evs run
  rw [← clockLevel_pulses, runOps_pulses run, clockLevel_replicate_samplePulses]

/-! ### NMI and IRQ (60_exceptions.md R206) -/

/-- Only a sample pulses the non-maskable interrupt input. -/
theorem eq_smp_of_nmi_mem {i : Instr} {s t : State} (h : exec i s = .next t) (nmi : .nmi ∈ t.out) : i = .smp := by
  have pulse : .nmi ∈ pulses t.out := List.mem_filter.mpr ⟨nmi, rfl⟩
  rw [exec_pulses h] at pulse
  by_contra other
  rw [if_neg other] at pulse
  cases pulse

/-- Settles O18: an NMI means a sample, which does not drive the request line. -/
theorem noStepEmitsNmiAndIrq : Obligations.NoStepEmitsNmiAndIrq := by
  rintro i s t b h ⟨nmi, irq⟩
  obtain rfl := eq_smp_of_nmi_mem h nmi
  cases (exec_smp s).symm.trans h
  exact irq_not_mem_samplePulses s.board b irq

/-! ### portBWrite (42_psg_port_handlers.md R140) -/

/-- The word 0x60bb is PBW b (30_encoding.md R79). -/
theorem decode_pbw_word (b : Byte) : decode (0x60#8 ++ b) = .ok (.pbw b) :=
  decode_byteOperand_word (op := 0x6) (by decide) (by decide) (fun w h => by simp [decodeOp, h]) b

/-- The events of a port-B byte with the presence test outermost, in the order of decision D10. -/
theorem driveDecodersEvents_eq_ite (b : Board) (v : Byte) :
    driveDecodersEvents b v =
      if b.secondaryPresent then
        [.decMode .primary (modeField v), .decMode .secondary (b.secMode (modeField v)), .decReset .primary (rst1 v),
          .decReset .secondary (rst2 v)]
      else [.decMode .primary (modeField v), .decReset .primary (rst1 v)] := by
  unfold driveDecodersEvents
  split <;> rfl

/-- Settles O19: the word is PBW's; the record is the drive of both decoders by the byte's fields. -/
theorem portBWriteDrivesTheDecoders : Obligations.PortBWriteDrivesTheDecoders :=
  fun v s => ⟨decode_pbw_word v, (driveDecodersEvents_eq_ite s.board v).symm ▸ exec_pbw v s⟩

/-! ### The unwired ADPCM write (30_encoding.md R80) -/

/-- Settles O25. -/
theorem unwiredAdpcmVariantIsRefused : Obligations.UnwiredAdpcmVariantIsRefused :=
  ⟨fun off v _ variantB => exec_adwa_refused variantB off v, fun off v _ variantA => exec_adwb_refused variantA off v⟩

/-! ### Acknowledge and readCommand (44_command_latch.md R172, R173) -/

/-- The word 0xB0vv is ACK v (30_encoding.md R79). -/
theorem decode_ack_word (v : Byte) : decode (0xB0#8 ++ v) = .ok (.ack v) :=
  decode_byteOperand_word (op := 0xB) (by decide) (by decide) (fun w h => by simp [decodeOp, h]) v

/-- Settles O28: the word is ACK's, and the operation clears the latch whatever the byte. -/
theorem acknowledgeClearsTheRequest : Obligations.AcknowledgeClearsTheRequest :=
  fun v s => ⟨decode_ack_word v, exec_ack v s⟩

/-- Settles O29: the byte is the latch with a 0 before its 7 bits. -/
theorem readCommandReturnsThePendingCommand : Obligations.ReadCommandReturnsThePendingCommand :=
  ⟨rfl, fun s => zext8_eq_append s.regs.cmd ▸ exec_rcl s⟩

/-! ### Reset (70_reset_and_hazards.md R230, 10_state.md R34) -/

/-- Settles O32: the record is `resetRegisters`, written out. -/
theorem resetOperationSetsEveryField : Obligations.ResetOperationSetsEveryField :=
  ⟨rfl, exec_rst⟩

/-- Settles O33: the same record on every board, and the standard board's `port2`. -/
theorem resetStateHoldsTheResetValues : Obligations.ResetStateHoldsTheResetValues :=
  ⟨fun _ => rfl, rfl, rfl, rfl⟩

end Sys2Proof.Machine
